-- ==== Sys2Proof/Word.lean ====
section
/-!
DEFINITION. The word types of the pixel-8 core (00_scope.md R7, R9, R10).
Every register value, opcode and immediate is an unsigned bit vector, bit 0 the least significant.
-/

namespace Sys2Proof

/-- A memory cell, a general register, a timer, an 8-bit immediate (R7). -/
abbrev Byte := BitVec 8

/-- `PC`, `I`, a call-stack entry (R7). -/
abbrev Word := BitVec 16

/-- An opcode: a 16-bit instruction word (R9, 30_encoding.md R70). -/
abbrev Opcode := BitVec 16

/-- A 4-bit register index `x` or `y`; every value names a register (10_state.md R19). -/
abbrev Reg := BitVec 4

end Sys2Proof
end

