-- ==== Sys2Proof/Syntax.lean ====
section
/-!
DEFINITION. The 25 instructions of the closed opcode table (00_scope.md R1, R6; 30_encoding.md R72, R75, R76).
Operand fields have exactly the width of their encoding field, so no operand can be out of range (R73).
A word that matches no row has no constructor here: `decode` rejects it by name and the step runs it by
44_unrecognized.md R119.
-/

namespace Sys2Proof

/-- One constructor per row of spec/opcode_table.json, in the table's order. -/
inductive Instr where
  /-- `00E0` CLEAR (R113). -/
  | clear
  /-- `00EE` RETURN (R86). -/
  | ret
  /-- `1nnn` JUMP (R87). -/
  | jump (nnn : BitVec 12)
  /-- `2nnn` CALL (R88). -/
  | call (nnn : BitVec 12)
  /-- `3xkk` SKIP_EQ_IMM (R89). -/
  | skipEqImm (x : Reg) (kk : Byte)
  /-- `4xkk` SKIP_NEQ_IMM (R90). -/
  | skipNeqImm (x : Reg) (kk : Byte)
  /-- `5xy0` SKIP_EQ_REG (R91). -/
  | skipEqReg (x y : Reg)
  /-- `6xkk` LOAD_IMM (R96). -/
  | loadImm (x : Reg) (kk : Byte)
  /-- `7xkk` ADD_IMM (R97). -/
  | addImm (x : Reg) (kk : Byte)
  /-- `8xy0` LOAD_REG (R98). -/
  | loadReg (x y : Reg)
  /-- `8xy1` OR (R99). -/
  | orReg (x y : Reg)
  /-- `8xy2` AND (R100). -/
  | andReg (x y : Reg)
  /-- `8xy3` XOR (R101). -/
  | xorReg (x y : Reg)
  /-- `8xy4` ADD_REG (R102). -/
  | addReg (x y : Reg)
  /-- `8xy5` SUB_REG (R103). -/
  | subReg (x y : Reg)
  /-- `8xy6` SHIFT_RIGHT (R104). -/
  | shiftRight (x y : Reg)
  /-- `8xy7` SUBN_REG (R105). -/
  | subnReg (x y : Reg)
  /-- `8xyE` SHIFT_LEFT (R106). -/
  | shiftLeft (x y : Reg)
  /-- `9xy0` SKIP_NEQ_REG (R92). -/
  | skipNeqReg (x y : Reg)
  /-- `Annn` LOAD_I (R107). -/
  | loadI (nnn : BitVec 12)
  /-- `Dxyn` DRAW (R116, R118). -/
  | draw (x y : Reg) (n : BitVec 4)
  /-- `Fx1E` ADD_I (R108). -/
  | addI (x : Reg)
  /-- `Fx33` STORE_BCD (R109). -/
  | storeBcd (x : Reg)
  /-- `Fx55` STORE_REGS (R110). -/
  | storeRegs (x : Reg)
  /-- `Fx65` LOAD_REGS (R111). -/
  | loadRegs (x : Reg)
  deriving DecidableEq, Repr

end Sys2Proof
end

