-- ==== Sys2Proof/WellFormed.lean ====
section
/-!
DEFINITION. Operand ranges (30_encoding.md R71, R73, R80).
`Instr` carries operands of exactly the field's width, so every `Instr` is well formed; the range checks bite on
operands that still come as plain numbers, which is where an assembler refuses them (R80).
-/

namespace Sys2Proof

/-- The operand fields of R71 as plain numbers, before they are known to fit. A field an instruction has not is 0. -/
structure RawOperands where
  x : Nat := 0
  y : Nat := 0
  n : Nat := 0
  kk : Nat := 0
  nnn : Nat := 0
  deriving DecidableEq, Repr

/-- Each operand fits its field (R71): `x`, `y`, `n` 4 bits, `kk` 8 bits, `nnn` 12 bits. "An assembler refuses a
value that does not fit its field: `kk > 255`, `nnn > 0xFFF`, `n > 15`" (R80). -/
def RawOperands.fits (o : RawOperands) : Bool :=
  decide (o.x < 16) && decide (o.y < 16) && decide (o.n < 16) && decide (o.kk < 256) && decide (o.nnn < 4096)

/-- The operands of an instruction as plain numbers (R73: unsigned, used as they stand). -/
def Instr.rawOperands : Instr → RawOperands
  | .clear => {}
  | .ret => {}
  | .jump nnn => { nnn := nnn.toNat }
  | .call nnn => { nnn := nnn.toNat }
  | .skipEqImm x kk => { x := x.toNat, kk := kk.toNat }
  | .skipNeqImm x kk => { x := x.toNat, kk := kk.toNat }
  | .skipEqReg x y => { x := x.toNat, y := y.toNat }
  | .loadImm x kk => { x := x.toNat, kk := kk.toNat }
  | .addImm x kk => { x := x.toNat, kk := kk.toNat }
  | .loadReg x y => { x := x.toNat, y := y.toNat }
  | .orReg x y => { x := x.toNat, y := y.toNat }
  | .andReg x y => { x := x.toNat, y := y.toNat }
  | .xorReg x y => { x := x.toNat, y := y.toNat }
  | .addReg x y => { x := x.toNat, y := y.toNat }
  | .subReg x y => { x := x.toNat, y := y.toNat }
  | .shiftRight x y => { x := x.toNat, y := y.toNat }
  | .subnReg x y => { x := x.toNat, y := y.toNat }
  | .shiftLeft x y => { x := x.toNat, y := y.toNat }
  | .skipNeqReg x y => { x := x.toNat, y := y.toNat }
  | .loadI nnn => { nnn := nnn.toNat }
  | .draw x y n => { x := x.toNat, y := y.toNat, n := n.toNat }
  | .addI x => { x := x.toNat }
  | .storeBcd x => { x := x.toNat }
  | .storeRegs x => { x := x.toNat }
  | .loadRegs x => { x := x.toNat }

/-- An instruction is well formed when its operands fit their fields. The types make this hold of every `Instr`. -/
def Instr.wellFormed (i : Instr) : Bool := i.rawOperands.fits

end Sys2Proof
end

