-- ==== Sys2Proof/Decode.lean ====
section
/-!
DEFINITION. Decode by fixed bit fields (30_encoding.md R70 to R79), the encoder written from the same formats,
and the opcode table's rows as masks.
-/

namespace Sys2Proof

/-! ### Fields (R71) -/

/-- `op`: `w[15:12]`. -/
def opField (w : Opcode) : BitVec 4 := w.extractLsb' 12 4

/-- `x`: `w[11:8]`. -/
def xField (w : Opcode) : Reg := w.extractLsb' 8 4

/-- `y`: `w[7:4]`. -/
def yField (w : Opcode) : Reg := w.extractLsb' 4 4

/-- `n`: `w[3:0]`. -/
def nField (w : Opcode) : BitVec 4 := w.extractLsb' 0 4

/-- `kk`: `w[7:0]`. -/
def kkField (w : Opcode) : Byte := w.extractLsb' 0 8

/-- `nnn`: `w[11:0]`. -/
def nnnField (w : Opcode) : BitVec 12 := w.extractLsb' 0 12

/-! ### Decode -/

/-- The groups of unrecognized words, as R77 lists them. -/
inductive UnrecognizedGroup where
  /-- `0nnn` except `00E0` and `00EE`. -/
  | zeroFamily
  /-- `5xyN`, `N != 0`. -/
  | fiveFamily
  /-- `8xyN`, `N` in `8, 9, A, B, C, D, F`. -/
  | eightFamily
  /-- `9xyN`, `N != 0`. -/
  | nineFamily
  /-- `Bxxx`, `Cxxx`, `Exxx`. -/
  | noFamily
  /-- `FxKK`, `KK` not in `1E, 33, 55, 65`. -/
  | fFamily
  deriving DecidableEq, Repr

/-- What decoding a word gives. Decode is total (R78): an instruction, or an unrecognized word under its group's name. -/
inductive Decoded where
  | instr (i : Instr)
  | unrecognized (g : UnrecognizedGroup)
  deriving DecidableEq, Repr

/-- The `0` family is selected by the whole word (R76). -/
def decodeZero (w : Opcode) : Decoded :=
  match w.toNat with
  | 0x00E0 => .instr .clear
  | 0x00EE => .instr .ret
  | _ => .unrecognized .zeroFamily

/-- `5xy0` needs `w[3:0] = 0` (R75, C2). -/
def decodeFive (w : Opcode) : Decoded :=
  match (nField w).toNat with
  | 0x0 => .instr (.skipEqReg (xField w) (yField w))
  | _ => .unrecognized .fiveFamily

/-- The `8` family is selected by `w[3:0]` (R76). -/
def decodeEight (w : Opcode) : Decoded :=
  match (nField w).toNat with
  | 0x0 => .instr (.loadReg (xField w) (yField w))
  | 0x1 => .instr (.orReg (xField w) (yField w))
  | 0x2 => .instr (.andReg (xField w) (yField w))
  | 0x3 => .instr (.xorReg (xField w) (yField w))
  | 0x4 => .instr (.addReg (xField w) (yField w))
  | 0x5 => .instr (.subReg (xField w) (yField w))
  | 0x6 => .instr (.shiftRight (xField w) (yField w))
  | 0x7 => .instr (.subnReg (xField w) (yField w))
  | 0xE => .instr (.shiftLeft (xField w) (yField w))
  | _ => .unrecognized .eightFamily

/-- `9xy0` needs `w[3:0] = 0` (R75, C2). -/
def decodeNine (w : Opcode) : Decoded :=
  match (nField w).toNat with
  | 0x0 => .instr (.skipNeqReg (xField w) (yField w))
  | _ => .unrecognized .nineFamily

/-- The `F` family is selected by `w[7:0]` (R76). -/
def decodeF (w : Opcode) : Decoded :=
  match (kkField w).toNat with
  | 0x1E => .instr (.addI (xField w))
  | 0x33 => .instr (.storeBcd (xField w))
  | 0x55 => .instr (.storeRegs (xField w))
  | 0x65 => .instr (.loadRegs (xField w))
  | _ => .unrecognized .fFamily

/-- Decode a word, first by its top nibble (R74, R75). It reads nothing but the word (R74, R79).
The last arm is met by `0xB`, `0xC` and `0xE` alone, since `op` has 4 bits. -/
def decode (w : Opcode) : Decoded :=
  match (opField w).toNat with
  | 0x0 => decodeZero w
  | 0x1 => .instr (.jump (nnnField w))
  | 0x2 => .instr (.call (nnnField w))
  | 0x3 => .instr (.skipEqImm (xField w) (kkField w))
  | 0x4 => .instr (.skipNeqImm (xField w) (kkField w))
  | 0x5 => decodeFive w
  | 0x6 => .instr (.loadImm (xField w) (kkField w))
  | 0x7 => .instr (.addImm (xField w) (kkField w))
  | 0x8 => decodeEight w
  | 0x9 => decodeNine w
  | 0xA => .instr (.loadI (nnnField w))
  | 0xD => .instr (.draw (xField w) (yField w) (nField w))
  | 0xF => decodeF w
  | _ => .unrecognized .noFamily

/-- The instruction of a word, where it is recognized. -/
def decodeInstr (w : Opcode) : Option Instr :=
  match decode w with
  | .instr i => some i
  | .unrecognized _ => none

/-- The opcode formed from two bytes of memory, the byte at the lower address the high one (20_memory.md R48). -/
def opcodeOfBytes (hi lo : Byte) : Opcode := hi ++ lo

/-- What decoding the bytes of an instruction stream gives: a decoded word and the bytes after it, or too few bytes. -/
inductive BytesDecoded where
  | word (d : Decoded) (rest : List Byte)
  | truncated
  deriving DecidableEq, Repr

/-- Decode the first instruction of any byte sequence: one length, 2 bytes, high byte first (R70). -/
def decodeBytes : List Byte → BytesDecoded
  | hi :: lo :: rest => .word (decode (opcodeOfBytes hi lo)) rest
  | [_] => .truncated
  | [] => .truncated

/-! ### Encode (R72) -/

/-- Format `NNN`: `op nnn(12)`. -/
def formatNNN (op : BitVec 4) (nnn : BitVec 12) : Opcode := op ++ nnn

/-- Format `XKK`: `op x kk(8)`. -/
def formatXKK (op : BitVec 4) (x : Reg) (kk : Byte) : Opcode := op ++ x ++ kk

/-- Formats `XYS` and `XYN`: `op x y sub(4)` or `op x y n`. -/
def formatXYN (op : BitVec 4) (x y : Reg) (n : BitVec 4) : Opcode := op ++ x ++ y ++ n

/-- The word of an instruction (R72, R75, R76). Format `XS` is `XKK` with the sub-opcode in the low byte. -/
def encode : Instr → Opcode
  | .clear => 0x00E0#16
  | .ret => 0x00EE#16
  | .jump nnn => formatNNN 0x1#4 nnn
  | .call nnn => formatNNN 0x2#4 nnn
  | .skipEqImm x kk => formatXKK 0x3#4 x kk
  | .skipNeqImm x kk => formatXKK 0x4#4 x kk
  | .skipEqReg x y => formatXYN 0x5#4 x y 0x0#4
  | .loadImm x kk => formatXKK 0x6#4 x kk
  | .addImm x kk => formatXKK 0x7#4 x kk
  | .loadReg x y => formatXYN 0x8#4 x y 0x0#4
  | .orReg x y => formatXYN 0x8#4 x y 0x1#4
  | .andReg x y => formatXYN 0x8#4 x y 0x2#4
  | .xorReg x y => formatXYN 0x8#4 x y 0x3#4
  | .addReg x y => formatXYN 0x8#4 x y 0x4#4
  | .subReg x y => formatXYN 0x8#4 x y 0x5#4
  | .shiftRight x y => formatXYN 0x8#4 x y 0x6#4
  | .subnReg x y => formatXYN 0x8#4 x y 0x7#4
  | .shiftLeft x y => formatXYN 0x8#4 x y 0xE#4
  | .skipNeqReg x y => formatXYN 0x9#4 x y 0x0#4
  | .loadI nnn => formatNNN 0xA#4 nnn
  | .draw x y n => formatXYN 0xD#4 x y n
  | .addI x => formatXKK 0xF#4 x 0x1E#8
  | .storeBcd x => formatXKK 0xF#4 x 0x33#8
  | .storeRegs x => formatXKK 0xF#4 x 0x55#8
  | .loadRegs x => formatXKK 0xF#4 x 0x65#8

/-- The bytes of a word as memory holds them, the high byte at the lower address (R70, 20_memory.md R48). -/
def bytesOfOpcode (w : Opcode) : List Byte := [w.extractLsb' 8 8, w.extractLsb' 0 8]

/-- The instruction decoded from a word numbered as spec/opcode_table.json numbers it, laid out as memory holds it.
There is one length, 16 bits; bits from `nbits` up are 0. -/
def decodeTableWord (nbits w : Nat) : Option Instr :=
  match decodeBytes (bytesOfOpcode (BitVec.ofNat 16 (w % 2 ^ nbits))) with
  | .word (.instr i) _ => some i
  | .word (.unrecognized _) _ => none
  | .truncated => none

/-! ### The opcode table -/

/-- The mask of a row's fixed bits, and their value. -/
abbrev TableRow := Opcode × Opcode

/-- The row (mask, match) of spec/opcode_table.json that an instruction belongs to. -/
def tableRow : Instr → TableRow
  | .clear => (0xFFFF#16, 0x00E0#16)
  | .ret => (0xFFFF#16, 0x00EE#16)
  | .jump _ => (0xF000#16, 0x1000#16)
  | .call _ => (0xF000#16, 0x2000#16)
  | .skipEqImm _ _ => (0xF000#16, 0x3000#16)
  | .skipNeqImm _ _ => (0xF000#16, 0x4000#16)
  | .skipEqReg _ _ => (0xF00F#16, 0x5000#16)
  | .loadImm _ _ => (0xF000#16, 0x6000#16)
  | .addImm _ _ => (0xF000#16, 0x7000#16)
  | .loadReg _ _ => (0xF00F#16, 0x8000#16)
  | .orReg _ _ => (0xF00F#16, 0x8001#16)
  | .andReg _ _ => (0xF00F#16, 0x8002#16)
  | .xorReg _ _ => (0xF00F#16, 0x8003#16)
  | .addReg _ _ => (0xF00F#16, 0x8004#16)
  | .subReg _ _ => (0xF00F#16, 0x8005#16)
  | .shiftRight _ _ => (0xF00F#16, 0x8006#16)
  | .subnReg _ _ => (0xF00F#16, 0x8007#16)
  | .shiftLeft _ _ => (0xF00F#16, 0x800E#16)
  | .skipNeqReg _ _ => (0xF00F#16, 0x9000#16)
  | .loadI _ => (0xF000#16, 0xA000#16)
  | .draw _ _ _ => (0xF000#16, 0xD000#16)
  | .addI _ => (0xF0FF#16, 0xF01E#16)
  | .storeBcd _ => (0xF0FF#16, 0xF033#16)
  | .storeRegs _ => (0xF0FF#16, 0xF055#16)
  | .loadRegs _ => (0xF0FF#16, 0xF065#16)

/-- All 25 rows of spec/opcode_table.json, in the table's order. -/
def opcodeTable : List TableRow :=
  [(0xFFFF#16, 0x00E0#16), (0xFFFF#16, 0x00EE#16), (0xF000#16, 0x1000#16), (0xF000#16, 0x2000#16),
   (0xF000#16, 0x3000#16), (0xF000#16, 0x4000#16), (0xF00F#16, 0x5000#16), (0xF000#16, 0x6000#16),
   (0xF000#16, 0x7000#16)] ++
  [(0xF00F#16, 0x8000#16), (0xF00F#16, 0x8001#16), (0xF00F#16, 0x8002#16), (0xF00F#16, 0x8003#16),
   (0xF00F#16, 0x8004#16), (0xF00F#16, 0x8005#16), (0xF00F#16, 0x8006#16), (0xF00F#16, 0x8007#16),
   (0xF00F#16, 0x800E#16)] ++
  [(0xF00F#16, 0x9000#16), (0xF000#16, 0xA000#16), (0xF000#16, 0xD000#16), (0xF0FF#16, 0xF01E#16),
   (0xF0FF#16, 0xF033#16), (0xF0FF#16, 0xF055#16), (0xF0FF#16, 0xF065#16)]

/-- A word matches a row when every fixed bit has the row's value (R74). -/
def matchesRow (w : Opcode) (r : TableRow) : Bool := w &&& r.1 == r.2

end Sys2Proof
end

