-- ==== Sys2Proof/Config.lean ====
section
/-!
DEFINITION. What the spec fixes for this hardware (00_scope.md R7) and its two open parameters:
`STACK_CAPACITY` (R8, D1) and `V_RESET` (10_state.md R23, D2).
-/

namespace Sys2Proof.Config

/-- Memory holds the addresses `0x000` to `0xFFF` (R7). -/
abbrev memSize : Nat := 4096

/-- The program origin and the reset value of `PC` (R7, 10_state.md R28). -/
abbrev progOrigin : Nat := 0x200

/-- The framebuffer has 32 rows (R7). -/
abbrev fbRows : Nat := 32

/-- The framebuffer has 64 columns (R7). -/
abbrev fbCols : Nat := 64

/-- By how much this build's call-stack capacity exceeds 16. It has no body, so nothing proved about the
model rests on one capacity (R8, D1; log entry 2). -/
opaque stackCapacityExtra : Nat

/-- `STACK_CAPACITY`, an integer `>= 16` (R8). -/
def stackCapacity : Nat := stackCapacityExtra + 16

/-- The draw of `V_RESET` that `State.reset` names. The spec gives no value: DESIGN CHOICE, unsafe (log entry 1).
Statements about reset are made for every draw, through `State.resetWith`. -/
def vResetNamed : Vector Byte 16 := Vector.replicate 16 0x00#8

end Sys2Proof.Config
end

