-- ==== Sys2Proof/Machine/State.lean ====
section
/-!
DEFINITION. The state of the core: exactly the list of 10_state.md R18, as plain data, and the state after reset
(70_reset_and_hazards.md R142).
-/

namespace Sys2Proof.Machine

/-- `RUN_STATE` (R31, R32): Idle 0, Running 1, Halted 2; the code 3 is never held. -/
inductive RunState where
  | idle
  | running
  | halted
  deriving DecidableEq, Repr

/-- `FAULT_CODE` (R31, 60_exceptions.md R121): it only ever holds None 0, OutOfBounds 1, StackOverflow 2,
StackUnderflow 3. -/
inductive FaultCode where
  | none
  | outOfBounds
  | stackOverflow
  | stackUnderflow
  deriving DecidableEq, Repr

/-- Memory: address and byte pairs in one canonical form (`Memory.wf`); an unlisted address reads `0x00`, the reset
contents (R39). -/
abbrev Memory := List Host.Cell

/-- The call stack: entry index and value pairs in one canonical form (`CallStack.wf`); an unlisted entry reads
`0x0000`, its reset value (R34, R36). -/
abbrev CallStack := List (Nat × Word)

/-- The framebuffer: 32 rows of 64 cells, each off (`false`, 0) or on (`true`, 1) (R40). -/
abbrev Framebuffer := Vector (Vector Bool 64) 32

/-- The core's state (R18). -/
structure State where
  /-- `V[0]` to `V[15]` (R19); `V[0xF]` is also the flag register (R20). -/
  v : Vector Byte 16
  /-- `PC` (R24). -/
  pc : Word
  /-- The index register `I` (R30). -/
  i : Word
  /-- `SP`, the number of call-stack entries in use (R35). -/
  sp : Nat
  /-- `STACK` (R34). -/
  stack : CallStack
  /-- The delay timer `DT` (R37). -/
  dt : Byte
  /-- The sound timer `ST` (R37). -/
  st : Byte
  /-- `MEM` (R39). -/
  mem : Memory
  /-- `FB` (R40). -/
  fb : Framebuffer
  /-- `RUN_STATE` (R31). -/
  runState : RunState
  /-- `FAULT_CODE` (R31). -/
  faultCode : FaultCode
  /-- `FAULT_PC` (R31). -/
  faultPc : Word
  /-- `FAULT_OPCODE` (R31). -/
  faultOpcode : Opcode
  /-- `FAULT_ADDR`, 17 bits (R31). -/
  faultAddr : BitVec 17
  deriving DecidableEq, Repr

/-- The errors an instruction can `raise` (00_scope.md R14, 60_exceptions.md R121). The spec describes what each does
to the state (R125), so `faultEntry` TAKES every one of them and the step answers the Halted state as its next state:
no outcome of `step` or `exec` is `Host.Outcome.fault`. Safe (log entry 3). -/
inductive Fault where
  /-- An address, or a next `PC`, at or above 4096: raised by fetch, by `NextPC` (every instruction), and by the data
  accesses of DRAW, STORE_BCD, STORE_REGS and LOAD_REGS (R122). Taken by `faultEntry`. Safe. -/
  | outOfBounds (addr : Nat)
  /-- CALL with a full call stack (R88). Taken by `faultEntry`. Safe. -/
  | stackOverflow
  /-- RETURN with an empty call stack (R86). Taken by `faultEntry`. Safe. -/
  | stackUnderflow
  deriving DecidableEq, Repr

/-- The reasons an instruction has no meaning in the model. None is raised: every instruction has its meaning. -/
inductive Refusal where
  /-- An arm of `exec` that has no meaning yet, under its mnemonic. Raised by no arm of this model. Safe. -/
  | notModelled (mnemonic : String)
  deriving DecidableEq, Repr

/-- The state after `reset`, for one draw of `V_RESET` (R142): nothing survives a reset (D25). -/
def State.resetWith (vReset : Vector Byte 16) : State where
  v := vReset
  pc := 0x0200#16
  i := 0x0000#16
  sp := 0
  stack := []
  dt := 0x00#8
  st := 0x00#8
  mem := []
  fb := Vector.replicate 32 (Vector.replicate 64 false)
  runState := .idle
  faultCode := .none
  faultPc := 0x0000#16
  faultOpcode := 0x0000#16
  faultAddr := 0#17

/-- The state right after reset, with the draw of `V_RESET` that log entry 1 names (DESIGN CHOICE, unsafe: the spec
leaves `V` open, R23). -/
def State.reset : State := State.resetWith Config.vResetNamed

end Sys2Proof.Machine
end

