-- ==== Sys2Proof/Machine/Ops.lean ====
section
/-!
DEFINITION. The named operations over registers, memory, call stack and framebuffer, taking a fault, and the end of
every instruction (`NextPC` and commit).
-/

namespace Sys2Proof.Machine

/-! ### Sparse cells: memory and call stack share one representation -/

/-- The value at a key; an unlisted key reads 0. -/
def cellsRead {w : Nat} : List (Nat × BitVec w) → Nat → BitVec w
  | [], _ => 0#w
  | (k, v) :: rest, a => if k = a then v else cellsRead rest a

/-- Write one key, keeping keys strictly rising and listing no zero. -/
def cellsWrite {w : Nat} : List (Nat × BitVec w) → Nat → BitVec w → List (Nat × BitVec w)
  | [], a, v => if v = 0#w then [] else [(a, v)]
  | (k, u) :: rest, a, v =>
    if a < k then
      if v = 0#w then (k, u) :: rest else (a, v) :: (k, u) :: rest
    else if a = k then
      if v = 0#w then rest else (a, v) :: rest
    else (k, u) :: cellsWrite rest a v

/-- The canonical form from a lowest allowed key on: keys strictly rising and below `bound`, no zero listed. -/
def cellsWfFrom {w : Nat} (lo bound : Nat) : List (Nat × BitVec w) → Bool
  | [] => true
  | (k, v) :: rest => decide (lo ≤ k) && decide (k < bound) && decide (v ≠ 0#w) && cellsWfFrom (k + 1) bound rest

/-- The canonical form of memory: strictly rising addresses below 4096, no `0x00` listed. -/
def Memory.wf (m : Memory) : Bool := cellsWfFrom 0 Config.memSize m

/-- The canonical form of the call stack: strictly rising indices below `STACK_CAPACITY`, no `0x0000` listed. -/
def CallStack.wf (st : CallStack) : Bool := cellsWfFrom 0 Config.stackCapacity st

/-! ### General registers (10_state.md R19) -/

/-- `V[r]`. -/
def State.getV (s : State) (r : Reg) : Byte := s.v[r.toNat]'r.isLt

/-- `V[r] <- b`. No register is hardwired (R22). -/
def State.setV (s : State) (r : Reg) (b : Byte) : State := { s with v := s.v.set r.toNat b r.isLt }

/-- `V[0xF] <- flag`, then `V[x] <- b`: flag first, destination second (R20, 30_encoding.md R85, D12), so with
`x = 0xF` the destination value is what stays. -/
def State.setFlagThenV (s : State) (flag : Byte) (x : Reg) (b : Byte) : State := (s.setV 0xF#4 flag).setV x b

/-- Write consecutive registers from index `k` on. -/
def writeRegsFrom (v : Vector Byte 16) : Nat → List Byte → Vector Byte 16
  | _, [] => v
  | k, b :: bs => writeRegsFrom (v.setIfInBounds k b) (k + 1) bs

/-! ### Memory (20_memory.md R48, R58 to R61) -/

/-- `MEM[a]` without a check. -/
def Memory.read (m : Memory) (a : Nat) : Byte := cellsRead m a

/-- `MEM[a] <- b` without a check. -/
def Memory.write (m : Memory) (a : Nat) (b : Byte) : Memory := cellsWrite m a b

/-- `MemRead(addr, 1)` (R60): it checks its address before it touches memory. -/
def memRead (m : Memory) (a : Nat) : Except Fault Byte :=
  if Config.memSize ≤ a then .error (.outOfBounds a) else .ok (m.read a)

/-- `MemWrite(addr, 1, v)` (R60). -/
def memWrite (m : Memory) (a : Nat) (b : Byte) : Except Fault Memory :=
  if Config.memSize ≤ a then .error (.outOfBounds a) else .ok (m.write a b)

/-- `MemRead(addr, 2)`, instruction fetch (R48): big-endian, no wrap, no alignment (R50). -/
def fetchWord (m : Memory) (a : Nat) : Except Fault Opcode :=
  if Config.memSize ≤ a + 1 then .error (.outOfBounds (a + 1))
  else .ok (opcodeOfBytes (m.read a) (m.read (a + 1)))

/-- The check of an instruction that touches `n` bytes from `base` on, made before it touches any (R61): the recorded
address is the first one out of range, `max(base, 4096)`. Addresses do not wrap (R58). No byte, no check (R118). -/
def spanCheck (base n : Nat) : Except Fault Unit :=
  if 0 < n ∧ Config.memSize ≤ base + n - 1 then .error (.outOfBounds (max base Config.memSize)) else .ok ()

/-- Read `n` bytes from `base` on with the checked primitive, lowest address first. -/
def readBytesFrom (m : Memory) (base : Nat) : Nat → Except Fault (List Byte)
  | 0 => .ok []
  | n + 1 => (memRead m base).bind fun b => (readBytesFrom m (base + 1) n).map (b :: ·)

/-- Write bytes from `base` on with the checked primitive, lowest address first. -/
def writeBytesFrom (m : Memory) (base : Nat) : List Byte → Except Fault Memory
  | [] => .ok m
  | b :: bs => (memWrite m base b).bind fun m' => writeBytesFrom m' (base + 1) bs

/-- A multi-byte data read: the check of R61, then the bytes. -/
def readSpan (m : Memory) (base n : Nat) : Except Fault (List Byte) :=
  (spanCheck base n).bind fun _ => readBytesFrom m base n

/-- A multi-byte data write: the check of R61, then the bytes. -/
def writeSpan (m : Memory) (base : Nat) (bs : List Byte) : Except Fault Memory :=
  (spanCheck base bs.length).bind fun _ => writeBytesFrom m base bs

/-! ### Call stack (10_state.md R34 to R36) -/

/-- `STACK[k]`. -/
def CallStack.read (st : CallStack) (k : Nat) : Word := cellsRead st k

/-- `STACK[k] <- a`. -/
def CallStack.write (st : CallStack) (k : Nat) (a : Word) : CallStack := cellsWrite st k a

/-- A push is made only when `SP < STACK_CAPACITY`, writes `STACK[SP]` and then increments `SP` (R35); otherwise
StackOverflow (R88). -/
def push (s : State) (a : Word) : Except Fault State :=
  if s.sp < Config.stackCapacity then .ok { s with stack := s.stack.write s.sp a, sp := s.sp + 1 }
  else .error .stackOverflow

/-- A pop is made only when `SP > 0`, decrements `SP` and then reads `STACK[SP]`; the entry keeps its value
(R35, R36). Otherwise StackUnderflow (R86). It answers the popped address and the state after. -/
def pop (s : State) : Except Fault (Word × State) :=
  if s.sp = 0 then .error .stackUnderflow
  else .ok (s.stack.read (s.sp - 1), { s with sp := s.sp - 1 })

/-! ### Framebuffer (43_display.md R114) -/

/-- `FB[row mod 32][col mod 64]`: coordinates always wrap. -/
def Framebuffer.cell (fb : Framebuffer) (row col : Nat) : Bool :=
  (fb[row % 32]'(Nat.mod_lt _ (by decide)))[col % 64]'(Nat.mod_lt _ (by decide))

/-- `xor_pixel(row, col)` (R114): toggle the wrapped cell; answers the framebuffer after and the cell's new value. -/
def xorPixel (fb : Framebuffer) (row col : Nat) : Framebuffer × Bool :=
  let new := !(fb.cell row col)
  (fb.set (row % 32) ((fb[row % 32]'(Nat.mod_lt _ (by decide))).set (col % 64) new (Nat.mod_lt _ (by decide)))
    (Nat.mod_lt _ (by decide)), new)

/-- `for each (row, col) in P: xor_pixel(row, col)` (R116). -/
def xorPixels (fb : Framebuffer) (cells : List (Nat × Nat)) : Framebuffer :=
  cells.foldl (fun f p => (xorPixel f p.1 p.2).1) fb

/-- Every cell 0 (R113). -/
def clearedFramebuffer : Framebuffer := Vector.replicate 32 (Vector.replicate 64 false)

/-! ### Taking a fault (60_exceptions.md R125)

There is no return from a fault: no trap-return instruction exists, and only `reset` leaves Halted (R128). -/

/-- The code of a fault (R121). -/
def faultCodeOf : Fault → FaultCode
  | .outOfBounds _ => .outOfBounds
  | .stackOverflow => .stackOverflow
  | .stackUnderflow => .stackUnderflow

/-- What `FAULT_ADDR` records: the offending address for OutOfBounds, else 0 (R121, R125). -/
def faultAddrOf : Fault → BitVec 17
  | .outOfBounds addr => BitVec.ofNat 17 addr
  | .stackOverflow => 0#17
  | .stackUnderflow => 0#17

/-- Fault entry (R125): the fault is precise, so every element keeps its value from before the tick and only the
executor status is written. `w` is the opcode, `0x0000` for a fetch fault (30_encoding.md R83). -/
def faultEntry (f : Fault) (w : Opcode) (s : State) : State :=
  { s with
    runState := .halted
    faultCode := faultCodeOf f
    faultPc := s.pc
    faultOpcode := w
    faultAddr := faultAddrOf f }

/-! ### The end of every instruction -/

/-- `NextPC(target)` (10_state.md R27): `target` is an unbounded integer; `PC` does not wrap. -/
def nextPc (target : Nat) (s : State) : Except Fault State :=
  if Config.memSize ≤ target then .error (.outOfBounds target)
  else .ok { s with pc := BitVec.ofNat 16 target }

/-- Commit (30_encoding.md R82): all writes take effect together and `RUN_STATE` becomes Running; or, if anything was
raised, no write does and the fault is taken. -/
def commit (w : Opcode) (s : State) : Except Fault State → Host.Outcome State Fault Refusal
  | .ok t => .next { t with runState := .running }
  | .error f => .next (faultEntry f w s)

/-- Execute in the layout of 00_scope.md R15: `effect` is the instruction's own checks and writes, made first; the
check of `NextPC(target)` comes after them in priority (60_exceptions.md R124), and nothing is written if either
raises. `FAULT_OPCODE` is the instruction's word (log entry 4). -/
def retire (i : Instr) (s : State) (target : Nat) (effect : Except Fault State) : Host.Outcome State Fault Refusal :=
  commit (encode i) s (effect.bind (nextPc target))

end Sys2Proof.Machine
end

