-- ==== Sys2Proof/Machine/Flags.lean ====
section
/-!
DEFINITION. The values written to `V[0xF]` as a flag (10_state.md R29). `V[0xF]` is the only flag the core has.
-/

namespace Sys2Proof.Machine

/-- `bit(c)`: 1 when the condition holds, else 0 (00_scope.md R11). -/
def flagBit (c : Bool) : Byte := if c then 0x01#8 else 0x00#8

/-- ADD_REG: 1 if `a + b > 255` (R102). -/
def carryFlag (a b : Byte) : Byte := flagBit (decide (255 < a.toNat + b.toNat))

/-- SUB_REG and SUBN_REG: NOT borrow of `a - b`, 1 if `a >= b` (R103, R105). -/
def noBorrowFlag (a b : Byte) : Byte := flagBit (decide (b.toNat ≤ a.toNat))

/-- SHIFT_RIGHT: the bit shifted out, `b & 1` (R104). -/
def shiftedOutRight (b : Byte) : Byte := b &&& 0x01#8

/-- SHIFT_LEFT: the bit shifted out, 1 if `b & 0x80 != 0` (R106). -/
def shiftedOutLeft (b : Byte) : Byte := flagBit (decide (b &&& 0x80#8 ≠ 0x00#8))

/-- DRAW: 1 if some cell under a 1 bit of the sprite was on before the instruction (R116, R117). -/
def collisionFlag (fb : Framebuffer) (cells : List (Nat × Nat)) : Byte := flagBit (cells.any fun p => fb.cell p.1 p.2)

end Sys2Proof.Machine
end

