-- ==== Sys2Proof/Machine/Operands.lean ====
section
/-!
DEFINITION. How operands are formed (30_encoding.md R73, 42_index_memory.md R112). Nothing is sign-extended, scaled
or shifted.
-/

namespace Sys2Proof.Machine

/-- `A`, the address of the instruction being executed: `PC` still holds it (10_state.md R25). -/
def instrAddress (s : State) : Nat := s.pc.toNat

/-- The address of the next instruction word, `A + 2`, on unbounded integers (R25, R27). -/
def followingAddress (s : State) : Nat := instrAddress s + 2

/-- The target of a skip: `A + 4` when taken, else `A + 2` (R25, 00_scope.md R17 "Skip"). -/
def skipAddress (s : State) (taken : Bool) : Nat := if taken then instrAddress s + 4 else instrAddress s + 2

/-- `zext_16(nnn)` as a jump target (R73). -/
def targetAddress (nnn : BitVec 12) : Nat := nnn.toNat

/-- `zext_16(nnn)` as a value of `I` (R73, R107). -/
def indexImmediate (nnn : BitVec 12) : Word := nnn.setWidth 16

/-- The base of every data address: `I`, on unbounded integers (20_memory.md R58, R112). -/
def dataBase (s : State) : Nat := s.i.toNat

/-- `x + 1`, the number of registers `V[0]` to `V[x]` (R110, R111: the range is inclusive). -/
def regCount (x : Reg) : Nat := x.toNat + 1

/-- `V[0]` to `V[x]` (R110). -/
def regsUpTo (s : State) (x : Reg) : List Byte := s.v.toList.take (regCount x)

/-- The three decimal digits of a byte, most significant first (R109). -/
def bcdDigits (b : Byte) : List Byte :=
  [BitVec.ofNat 8 (b.toNat / 100), BitVec.ofNat 8 (b.toNat / 10 % 10), BitVec.ofNat 8 (b.toNat % 10)]

/-- The cells under the 1 bits of one sprite byte drawn at `(row, cx)`: bit 7 goes to column `cx`, and every coordinate
wraps (43_display.md R116). -/
def spriteRowCells (cx row : Nat) (b : Byte) : List (Nat × Nat) :=
  (List.range 8).filterMap fun c => if b.getLsbD (7 - c) then some (row % 32, (cx + c) % 64) else none

/-- The set `P` of R116: the cells under the sprite's 1 bits, its rows going down from `cy`. -/
def spriteCells (cx cy : Nat) : List Byte → List (Nat × Nat)
  | [] => []
  | b :: bs => spriteRowCells cx cy b ++ spriteCells cx (cy + 1) bs

end Sys2Proof.Machine
end

