-- ==== Sys2Proof/Machine/Alu.lean ====
section
/-!
DEFINITION. Register loads, arithmetic and logic (41_alu.md R95 to R106). Every value is computed from the operands
as they stood before the instruction (R95, C13, D12); 8-bit bit-vector arithmetic is the `mod 256` of R95.
-/

namespace Sys2Proof.Machine

/-- LOAD_IMM (R96). -/
def execLoadImm (x : Reg) (kk : Byte) (s : State) : Host.Outcome State Fault Refusal :=
  retire (.loadImm x kk) s (followingAddress s) (.ok (s.setV x kk))

/-- ADD_IMM (R97): wraps, no flag. -/
def execAddImm (x : Reg) (kk : Byte) (s : State) : Host.Outcome State Fault Refusal :=
  retire (.addImm x kk) s (followingAddress s) (.ok (s.setV x (s.getV x + kk)))

/-- LOAD_REG (R98). -/
def execLoadReg (x y : Reg) (s : State) : Host.Outcome State Fault Refusal :=
  retire (.loadReg x y) s (followingAddress s) (.ok (s.setV x (s.getV y)))

/-- OR (R99): no flag. -/
def execOrReg (x y : Reg) (s : State) : Host.Outcome State Fault Refusal :=
  retire (.orReg x y) s (followingAddress s) (.ok (s.setV x (s.getV x ||| s.getV y)))

/-- AND (R100): no flag. -/
def execAndReg (x y : Reg) (s : State) : Host.Outcome State Fault Refusal :=
  retire (.andReg x y) s (followingAddress s) (.ok (s.setV x (s.getV x &&& s.getV y)))

/-- XOR (R101): no flag. -/
def execXorReg (x y : Reg) (s : State) : Host.Outcome State Fault Refusal :=
  retire (.xorReg x y) s (followingAddress s) (.ok (s.setV x (s.getV x ^^^ s.getV y)))

/-- ADD_REG (R102): flag = carry. -/
def execAddReg (x y : Reg) (s : State) : Host.Outcome State Fault Refusal :=
  retire (.addReg x y) s (followingAddress s)
    (.ok (s.setFlagThenV (carryFlag (s.getV x) (s.getV y)) x (s.getV x + s.getV y)))

/-- SUB_REG (R103): flag = NOT borrow of `V[x] - V[y]`. -/
def execSubReg (x y : Reg) (s : State) : Host.Outcome State Fault Refusal :=
  retire (.subReg x y) s (followingAddress s)
    (.ok (s.setFlagThenV (noBorrowFlag (s.getV x) (s.getV y)) x (s.getV x - s.getV y)))

/-- SHIFT_RIGHT (R104): the source is `V[y]`; the old `V[x]` is not read. -/
def execShiftRight (x y : Reg) (s : State) : Host.Outcome State Fault Refusal :=
  retire (.shiftRight x y) s (followingAddress s)
    (.ok (s.setFlagThenV (shiftedOutRight (s.getV y)) x (s.getV y >>> 1)))

/-- SUBN_REG (R105): flag = NOT borrow of `V[y] - V[x]`. -/
def execSubnReg (x y : Reg) (s : State) : Host.Outcome State Fault Refusal :=
  retire (.subnReg x y) s (followingAddress s)
    (.ok (s.setFlagThenV (noBorrowFlag (s.getV y) (s.getV x)) x (s.getV y - s.getV x)))

/-- SHIFT_LEFT (R106): the source is `V[y]`. -/
def execShiftLeft (x y : Reg) (s : State) : Host.Outcome State Fault Refusal :=
  retire (.shiftLeft x y) s (followingAddress s)
    (.ok (s.setFlagThenV (shiftedOutLeft (s.getV y)) x (s.getV y <<< 1)))

end Sys2Proof.Machine
end

