-- ==== Sys2Proof/Machine/ControlFlow.lean ====
section
/-!
DEFINITION. Control flow: RETURN, JUMP, CALL and the skips (40_control_flow.md R86 to R94). No flag is written.
-/

namespace Sys2Proof.Machine

/-- RETURN (R86): StackUnderflow when `SP = 0`; otherwise the popped value is the next `PC`, with no `+2` (D4), and
OutOfBounds when it is `>= 4096`. -/
def execRet (s : State) : Host.Outcome State Fault Refusal :=
  commit (encode .ret) s ((pop s).bind fun r => nextPc r.1.toNat r.2)

/-- JUMP (R87). -/
def execJump (nnn : BitVec 12) (s : State) : Host.Outcome State Fault Refusal :=
  retire (.jump nnn) s (targetAddress nnn) (.ok s)

/-- CALL (R88): StackOverflow when the stack is full; otherwise push `A + 2` and jump. -/
def execCall (nnn : BitVec 12) (s : State) : Host.Outcome State Fault Refusal :=
  retire (.call nnn) s (targetAddress nnn) (push s (BitVec.ofNat 16 (followingAddress s)))

/-- SKIP_EQ_IMM (R89). -/
def execSkipEqImm (x : Reg) (kk : Byte) (s : State) : Host.Outcome State Fault Refusal :=
  retire (.skipEqImm x kk) s (skipAddress s (decide (s.getV x = kk))) (.ok s)

/-- SKIP_NEQ_IMM (R90). -/
def execSkipNeqImm (x : Reg) (kk : Byte) (s : State) : Host.Outcome State Fault Refusal :=
  retire (.skipNeqImm x kk) s (skipAddress s (decide (s.getV x ≠ kk))) (.ok s)

/-- SKIP_EQ_REG (R91). -/
def execSkipEqReg (x y : Reg) (s : State) : Host.Outcome State Fault Refusal :=
  retire (.skipEqReg x y) s (skipAddress s (decide (s.getV x = s.getV y))) (.ok s)

/-- SKIP_NEQ_REG (R92). -/
def execSkipNeqReg (x y : Reg) (s : State) : Host.Outcome State Fault Refusal :=
  retire (.skipNeqReg x y) s (skipAddress s (decide (s.getV x ≠ s.getV y))) (.ok s)

end Sys2Proof.Machine
end

