-- ==== Sys2Proof/Machine/Display.lean ====
section
/-!
DEFINITION. The framebuffer instructions (43_display.md R113 to R118).
-/

namespace Sys2Proof.Machine

/-- CLEAR (R113). -/
def execClear (s : State) : Host.Outcome State Fault Refusal :=
  retire .clear s (followingAddress s) (.ok { s with fb := clearedFramebuffer })

/-- What DRAW does once its sprite bytes are read (R116): the cells and the collision come from the state before the
instruction, then the cells are toggled and `V[0xF]` is written. -/
def drawSprite (x y : Reg) (s : State) (rows : List Byte) : State :=
  let cells := spriteCells (s.getV x).toNat (s.getV y).toNat rows
  { s with fb := xorPixels s.fb cells }.setV 0xF#4 (collisionFlag s.fb cells)

/-- DRAW (R116): `n` sprite bytes from `I`; with `n = 0` nothing is read or drawn and `V[0xF] <- 0` (R118). -/
def execDraw (x y : Reg) (n : BitVec 4) (s : State) : Host.Outcome State Fault Refusal :=
  retire (.draw x y n) s (followingAddress s) ((readSpan s.mem (dataBase s) n.toNat).map (drawSprite x y s))

end Sys2Proof.Machine
end

