-- ==== Sys2Proof/Machine/IndexMemory.lean ====
section
/-!
DEFINITION. The index register and memory transfers (42_index_memory.md R107 to R112). The one addressing mode is
`I + k`; `I` is never changed by an access.
-/

namespace Sys2Proof.Machine

/-- LOAD_I (R107). -/
def execLoadI (nnn : BitVec 12) (s : State) : Host.Outcome State Fault Refusal :=
  retire (.loadI nnn) s (followingAddress s) (.ok { s with i := indexImmediate nnn })

/-- ADD_I (R108): wraps modulo 65536, no flag, no fault (D24). -/
def execAddI (x : Reg) (s : State) : Host.Outcome State Fault Refusal :=
  retire (.addI x) s (followingAddress s) (.ok { s with i := s.i + (s.getV x).setWidth 16 })

/-- STORE_BCD (R109): the digits of `V[x]` at `I`, `I+1`, `I+2`. -/
def execStoreBcd (x : Reg) (s : State) : Host.Outcome State Fault Refusal :=
  retire (.storeBcd x) s (followingAddress s)
    ((writeSpan s.mem (dataBase s) (bcdDigits (s.getV x))).map fun m => { s with mem := m })

/-- STORE_REGS (R110): `V[0]` to `V[x]` at `I` to `I + x`. -/
def execStoreRegs (x : Reg) (s : State) : Host.Outcome State Fault Refusal :=
  retire (.storeRegs x) s (followingAddress s)
    ((writeSpan s.mem (dataBase s) (regsUpTo s x)).map fun m => { s with mem := m })

/-- LOAD_REGS (R111): `V[0]` to `V[x]` from `I` to `I + x`; registers above `x` are unchanged. -/
def execLoadRegs (x : Reg) (s : State) : Host.Outcome State Fault Refusal :=
  retire (.loadRegs x) s (followingAddress s)
    ((readSpan s.mem (dataBase s) (regCount x)).map fun bs => { s with v := writeRegsFrom s.v 0 bs })

end Sys2Proof.Machine
end

