-- ==== Sys2Proof/Machine/Unrecognized.lean ====
section
/-!
DEFINITION. Words that match no row of the opcode table (44_unrecognized.md R119, R120): reported and skipped. They
have no constructor of `Instr`; the step runs them with this meaning.
-/

namespace Sys2Proof.Machine

/-- An unrecognized word `w` (R119): only `PC` advances, by 2, and a next `PC` at or above 4096 is the one fault it can
meet. The report is `report` of Machine/Ports.lean. -/
def execUnrecognized (w : Opcode) (s : State) : Host.Outcome State Fault Refusal :=
  commit w s (nextPc (followingAddress s) s)

end Sys2Proof.Machine
end

