-- ==== Sys2Proof/Machine/Fetch.lean ====
section
/-!
DEFINITION. The fetch phase of a step (30_encoding.md R82, R83) and how an instruction word is placed in memory
where the next fetch reads it.
-/

namespace Sys2Proof.Machine

/-- Fetch reads the word at `PC` and changes nothing (R83, 10_state.md R25). -/
def fetch (s : State) : Except Fault Opcode := fetchWord s.mem s.pc.toNat

/-- A fetch fault is taken with `FAULT_OPCODE = 0x0000`: no opcode was fetched (R83, D28). -/
def fetchFault (f : Fault) (s : State) : Host.Outcome State Fault Refusal := .next (faultEntry f 0x0000#16 s)

/-- A tick in Halted has no effect (10_state.md R32, 60_exceptions.md R127). -/
def haltedTick (s : State) : Host.Outcome State Fault Refusal := .next s

/-- Memory with a word stored at an address, high byte first (20_memory.md R48). Bytes past `0xFFF` do not exist. -/
def placeWord (m : Memory) (a : Nat) (w : Opcode) : Memory :=
  match writeSpan m a (bytesOfOpcode w) with
  | .ok m' => m'
  | .error _ => m

end Sys2Proof.Machine
end

