-- ==== Sys2Proof/Machine/Step.lean ====
section
/-!
DEFINITION. One `tick` of the executor (30_encoding.md R82): fetch, decode, execute, commit.
-/

namespace Sys2Proof.Machine

/-- `tick()` (R82). `RUN_STATE <- Running` is part of every instruction's commit. The answer is always a next state: a
fault leaves the core Halted with its record (60_exceptions.md R125). What the tick puts on the `report` and `trace`
ports is `report` and `trace` of Machine/Ports.lean. -/
def step (s : State) : Host.Outcome State Fault Refusal :=
  match s.runState with
  | .halted => haltedTick s
  | .idle | .running =>
    match fetch s with
    | .error f => fetchFault f s
    | .ok w =>
      match decode w with
      | .instr i => exec i s
      | .unrecognized _ => execUnrecognized w s

/-- The state with the instruction word `w` (numbered as spec/opcode_table.json numbers it, bits from `nbits` up 0)
stored where the next step fetches, at `PC` and `PC+1`. It stands for the host's `load` (log entry 5). Where the core
fetches nothing (Halted, R127) or a second byte does not exist (`PC = 0xFFF`, R83), no placement makes it fetch. -/
def State.withFetchWord (s : State) (nbits w : Nat) : State :=
  { s with mem := placeWord s.mem s.pc.toNat (BitVec.ofNat 16 (w % 2 ^ nbits)) }

end Sys2Proof.Machine
end

