-- ==== Sys2Proof/Machine/Assembly.lean ====
section
/-!
DEFINITION. The assembler syntax of 30_encoding.md R80 and R81: mnemonics, operands, the refusal of a value that does
not fit its field, the two data directives, and the text of an instruction. No instruction's behaviour depends on it.
-/

namespace Sys2Proof.Machine

/-- An operand as an assembler meets it: a register or a number, not yet known to fit its field. -/
inductive Operand where
  | reg (index : Nat)
  | num (value : Nat)
  deriving DecidableEq, Repr

/-- The mnemonic: the Name column of the opcode table (R80). -/
def mnemonicOf : Instr → String
  | .clear => "CLEAR"
  | .ret => "RETURN"
  | .jump _ => "JUMP"
  | .call _ => "CALL"
  | .skipEqImm _ _ => "SKIP_EQ_IMM"
  | .skipNeqImm _ _ => "SKIP_NEQ_IMM"
  | .skipEqReg _ _ => "SKIP_EQ_REG"
  | .loadImm _ _ => "LOAD_IMM"
  | .addImm _ _ => "ADD_IMM"
  | .loadReg _ _ => "LOAD_REG"
  | .orReg _ _ => "OR"
  | .andReg _ _ => "AND"
  | .xorReg _ _ => "XOR"
  | .addReg _ _ => "ADD_REG"
  | .subReg _ _ => "SUB_REG"
  | .shiftRight _ _ => "SHIFT_RIGHT"
  | .subnReg _ _ => "SUBN_REG"
  | .shiftLeft _ _ => "SHIFT_LEFT"
  | .skipNeqReg _ _ => "SKIP_NEQ_REG"
  | .loadI _ => "LOAD_I"
  | .draw _ _ _ => "DRAW"
  | .addI _ => "ADD_I"
  | .storeBcd _ => "STORE_BCD"
  | .storeRegs _ => "STORE_REGS"
  | .loadRegs _ => "LOAD_REGS"

/-- The operands an instruction is written with, in the order of R80. -/
def operandsOf : Instr → List Operand
  | .clear => []
  | .ret => []
  | .jump nnn => [.num nnn.toNat]
  | .call nnn => [.num nnn.toNat]
  | .skipEqImm x kk => [.reg x.toNat, .num kk.toNat]
  | .skipNeqImm x kk => [.reg x.toNat, .num kk.toNat]
  | .skipEqReg x y => [.reg x.toNat, .reg y.toNat]
  | .loadImm x kk => [.reg x.toNat, .num kk.toNat]
  | .addImm x kk => [.reg x.toNat, .num kk.toNat]
  | .loadReg x y => [.reg x.toNat, .reg y.toNat]
  | .orReg x y => [.reg x.toNat, .reg y.toNat]
  | .andReg x y => [.reg x.toNat, .reg y.toNat]
  | .xorReg x y => [.reg x.toNat, .reg y.toNat]
  | .addReg x y => [.reg x.toNat, .reg y.toNat]
  | .subReg x y => [.reg x.toNat, .reg y.toNat]
  | .shiftRight x y => [.reg x.toNat, .reg y.toNat]
  | .subnReg x y => [.reg x.toNat, .reg y.toNat]
  | .shiftLeft x y => [.reg x.toNat, .reg y.toNat]
  | .skipNeqReg x y => [.reg x.toNat, .reg y.toNat]
  | .loadI nnn => [.num nnn.toNat]
  | .draw x y n => [.reg x.toNat, .reg y.toNat, .num n.toNat]
  | .addI x => [.reg x.toNat]
  | .storeBcd x => [.reg x.toNat]
  | .storeRegs x => [.reg x.toNat]
  | .loadRegs x => [.reg x.toNat]

/-- No operand. -/
def assembleNone (i : Instr) : List Operand → Option Instr
  | [] => some i
  | _ :: _ => none

/-- One address operand, refused above `0xFFF`. -/
def assembleNNN (f : BitVec 12 → Instr) : List Operand → Option Instr
  | [.num nnn] => if RawOperands.fits { nnn := nnn } then some (f (BitVec.ofNat 12 nnn)) else none
  | _ => none

/-- A register and an immediate, refused above 255. -/
def assembleXKK (f : Reg → Byte → Instr) : List Operand → Option Instr
  | [.reg x, .num kk] =>
    if RawOperands.fits { x := x, kk := kk } then some (f (BitVec.ofNat 4 x) (BitVec.ofNat 8 kk)) else none
  | _ => none

/-- Two registers. -/
def assembleXY (f : Reg → Reg → Instr) : List Operand → Option Instr
  | [.reg x, .reg y] =>
    if RawOperands.fits { x := x, y := y } then some (f (BitVec.ofNat 4 x) (BitVec.ofNat 4 y)) else none
  | _ => none

/-- Two registers and a row count, refused above 15. -/
def assembleXYN (f : Reg → Reg → BitVec 4 → Instr) : List Operand → Option Instr
  | [.reg x, .reg y, .num n] =>
    if RawOperands.fits { x := x, y := y, n := n } then
      some (f (BitVec.ofNat 4 x) (BitVec.ofNat 4 y) (BitVec.ofNat 4 n))
    else none
  | _ => none

/-- One register. -/
def assembleX (f : Reg → Instr) : List Operand → Option Instr
  | [.reg x] => if RawOperands.fits { x := x } then some (f (BitVec.ofNat 4 x)) else none
  | _ => none

/-- Assemble one instruction; `none` where the assembler refuses (R80). -/
def assemble (mnemonic : String) (ops : List Operand) : Option Instr :=
  match mnemonic with
  | "CLEAR" => assembleNone .clear ops
  | "RETURN" => assembleNone .ret ops
  | "JUMP" => assembleNNN .jump ops
  | "CALL" => assembleNNN .call ops
  | "SKIP_EQ_IMM" => assembleXKK .skipEqImm ops
  | "SKIP_NEQ_IMM" => assembleXKK .skipNeqImm ops
  | "SKIP_EQ_REG" => assembleXY .skipEqReg ops
  | "LOAD_IMM" => assembleXKK .loadImm ops
  | "ADD_IMM" => assembleXKK .addImm ops
  | "LOAD_REG" => assembleXY .loadReg ops
  | "OR" => assembleXY .orReg ops
  | "AND" => assembleXY .andReg ops
  | "XOR" => assembleXY .xorReg ops
  | "ADD_REG" => assembleXY .addReg ops
  | "SUB_REG" => assembleXY .subReg ops
  | "SHIFT_RIGHT" => assembleXY .shiftRight ops
  | "SUBN_REG" => assembleXY .subnReg ops
  | "SHIFT_LEFT" => assembleXY .shiftLeft ops
  | "SKIP_NEQ_REG" => assembleXY .skipNeqReg ops
  | "LOAD_I" => assembleNNN .loadI ops
  | "DRAW" => assembleXYN .draw ops
  | "ADD_I" => assembleX .addI ops
  | "STORE_BCD" => assembleX .storeBcd ops
  | "STORE_REGS" => assembleX .storeRegs ops
  | "LOAD_REGS" => assembleX .loadRegs ops
  | _ => none

/-- One line of a program: an instruction or a data directive (R81). -/
inductive AsmItem where
  | instr (mnemonic : String) (ops : List Operand)
  /-- `.byte b, ...` -/
  | bytes (values : List Nat)
  /-- `.word w, ...` -/
  | words (values : List Nat)
  deriving DecidableEq, Repr

/-- `.byte`: each value one byte, refused above 255. -/
def directiveBytes : List Nat → Option (List Byte)
  | [] => some []
  | b :: bs => if b < 256 then (directiveBytes bs).map (BitVec.ofNat 8 b :: ·) else none

/-- `.word`: each value 16 bits, high byte first, refused above `0xFFFF` (R81). -/
def directiveWords : List Nat → Option (List Byte)
  | [] => some []
  | w :: ws => if w < 65536 then (directiveWords ws).map (bytesOfOpcode (BitVec.ofNat 16 w) ++ ·) else none

/-- The bytes of one line. -/
def asmItemBytes : AsmItem → Option (List Byte)
  | .instr m ops => (assemble m ops).map fun i => bytesOfOpcode (encode i)
  | .bytes values => directiveBytes values
  | .words values => directiveWords values

/-- The bytes of a program, line after line. -/
def assembleProgram : List AsmItem → Option (List Byte)
  | [] => some []
  | l :: ls => (asmItemBytes l).bind fun bs => (assembleProgram ls).map (bs ++ ·)

/-! ### Text -/

/-- A hex digit. -/
def hexDigit (d : Nat) : Char := ['0', '1', '2', '3', '4', '5', '6', '7', '8', '9', 'A', 'B', 'C', 'D', 'E', 'F'].getD d '0'

/-- `digits` hex digits of a value, most significant first. -/
def hexDigits (value : Nat) : Nat → List Char
  | 0 => []
  | k + 1 => hexDigit (value / 16 ^ k % 16) :: hexDigits value k

/-- `V0` to `VF`. -/
def regText (r : Reg) : String := "V" ++ String.ofList (hexDigits r.toNat 1)

/-- An immediate or address in hex. -/
def hexText (value digits : Nat) : String := "0x" ++ String.ofList (hexDigits value digits)

/-- An instruction's operands as text, in the syntax of R80. -/
def operandText : Instr → String
  | .clear => ""
  | .ret => ""
  | .jump nnn => " " ++ hexText nnn.toNat 3
  | .call nnn => " " ++ hexText nnn.toNat 3
  | .loadI nnn => " " ++ hexText nnn.toNat 3
  | .skipEqImm x kk => " " ++ regText x ++ ", " ++ hexText kk.toNat 2
  | .skipNeqImm x kk => " " ++ regText x ++ ", " ++ hexText kk.toNat 2
  | .loadImm x kk => " " ++ regText x ++ ", " ++ hexText kk.toNat 2
  | .addImm x kk => " " ++ regText x ++ ", " ++ hexText kk.toNat 2
  | .skipEqReg x y => " " ++ regText x ++ ", " ++ regText y
  | .loadReg x y => " " ++ regText x ++ ", " ++ regText y
  | .orReg x y => " " ++ regText x ++ ", " ++ regText y
  | .andReg x y => " " ++ regText x ++ ", " ++ regText y
  | .xorReg x y => " " ++ regText x ++ ", " ++ regText y
  | .addReg x y => " " ++ regText x ++ ", " ++ regText y
  | .subReg x y => " " ++ regText x ++ ", " ++ regText y
  | .shiftRight x y => " " ++ regText x ++ ", " ++ regText y
  | .subnReg x y => " " ++ regText x ++ ", " ++ regText y
  | .shiftLeft x y => " " ++ regText x ++ ", " ++ regText y
  | .skipNeqReg x y => " " ++ regText x ++ ", " ++ regText y
  | .draw x y n => " " ++ regText x ++ ", " ++ regText y ++ ", " ++ toString n.toNat
  | .addI x => " " ++ regText x
  | .storeBcd x => " " ++ regText x
  | .storeRegs x => " " ++ regText x
  | .loadRegs x => " " ++ regText x

/-- An instruction as text (R80). -/
def instrText (i : Instr) : String := mnemonicOf i ++ operandText i

end Sys2Proof.Machine
end

