-- ==== Sys2Proof/Machine/Ports.lean ====
section
/-!
DEFINITION. The ports through which the host reaches the core (10_state.md R43 to R46). `tick` is `step`; `report` and
`trace` are what the tick taken FROM a state puts on those ports, since neither is held as state (R45, R46).
-/

namespace Sys2Proof.Machine

/-- The two timers (R37). -/
inductive Timer where
  | dt
  | st
  deriving DecidableEq, Repr

/-! ### Per-tick outputs -/

/-- The value on the `report` port (R45). -/
inductive Report where
  | none
  | unknownOpcode (pc : Word) (opcode : Opcode)
  deriving DecidableEq, Repr

/-- What the tick from `s` puts on `report` (R45): UnknownOpcode if the instruction executed was unrecognized and did not
fault, else none. -/
def report (s : State) : Report :=
  match s.runState, fetch s with
  | .halted, _ => .none
  | _, .error _ => .none
  | _, .ok w =>
    match decode w with
    | .instr _ => .none
    | .unrecognized _ =>
      match nextPc (followingAddress s) s with
      | .ok _ => .unknownOpcode s.pc w
      | .error _ => .none

/-- A record on the `trace` port (R46). -/
structure TraceRecord where
  mnemonic : String
  operands : List Operand
  opcode : Opcode
  pc : Word
  deriving DecidableEq, Repr

/-- The record of a decoded word; `UNKNOWN` names an unrecognized opcode (R46). -/
def traceRecordOf (pc : Word) (w : Opcode) : TraceRecord :=
  match decode w with
  | .instr i => { mnemonic := mnemonicOf i, operands := operandsOf i, opcode := w, pc := pc }
  | .unrecognized _ => { mnemonic := "UNKNOWN", operands := [], opcode := w, pc := pc }

/-- A tick ends in Running exactly when it completes (R32). -/
def completes (s : State) : Bool :=
  match s.runState, step s with
  | .halted, _ => false
  | _, .next t => decide (t.runState = .running)
  | _, .fault _ => false
  | _, .refused _ => false

/-- What the tick from `s` puts on `trace`. A tick in Halted emits none, and a raise ends the step before the trace is
emitted (30_encoding.md R82). The port is optional and nothing reads it (log entry 6). -/
def trace (s : State) : Option TraceRecord :=
  match fetch s with
  | .ok w => if completes s then some (traceRecordOf s.pc w) else none
  | .error _ => none

/-! ### Status (R31) -/

/-- The 2-bit code of `RUN_STATE` (R31). -/
def runStateCode : RunState → BitVec 2
  | .idle => 0#2
  | .running => 1#2
  | .halted => 2#2

/-- The 4-bit code of `FAULT_CODE` (60_exceptions.md R121). -/
def faultCodeBits : FaultCode → BitVec 4
  | .none => 0#4
  | .outOfBounds => 1#4
  | .stackOverflow => 2#4
  | .stackUnderflow => 3#4

/-- What the host reads on `status` (R43). -/
structure Status where
  runState : BitVec 2
  faultCode : BitVec 4
  faultPc : Word
  faultOpcode : Opcode
  faultAddr : BitVec 17
  deriving DecidableEq, Repr

/-- The `status` port. -/
def status (s : State) : Status where
  runState := runStateCode s.runState
  faultCode := faultCodeBits s.faultCode
  faultPc := s.faultPc
  faultOpcode := s.faultOpcode
  faultAddr := s.faultAddr

/-! ### Framebuffer snapshot and timers -/

/-- `fb_snapshot` (43_display.md R115): the whole grid. -/
def fbSnapshot (s : State) : Framebuffer := s.fb

/-- `timer_read(t)` (60_exceptions.md R133). -/
def timerRead (t : Timer) (s : State) : Byte :=
  match t with
  | .dt => s.dt
  | .st => s.st

/-- `timer_write(t, v)` (R134). -/
def timerWrite (t : Timer) (b : Byte) (s : State) : State :=
  match t with
  | .dt => { s with dt := b }
  | .st => { s with st := b }

/-- One decrement, stopping at 0 (R135). -/
def countDown (b : Byte) : Byte := if b = 0x00#8 then b else b - 1#8

/-- `timer_decrement` (R135): both timers. -/
def timerDecrement (s : State) : State := { s with dt := countDown s.dt, st := countDown s.st }

/-! ### Program load (20_memory.md R62) -/

/-- The answer of `load`. -/
inductive LoadResult where
  | ok (s : State)
  /-- `LoadError(OutOfBounds)`: the image does not fit. No state changes (R62, R123). -/
  | loadError
  deriving DecidableEq, Repr

/-- Copy bytes to consecutive addresses. -/
def copyBytes (m : Memory) : Nat → List Byte → Memory
  | _, [] => m
  | a, b :: bs => copyBytes (m.write a b) (a + 1) bs

/-- `load(bytes)` (R62). Its precondition (Idle, no load since the last reset) is the host's duty and stands in
`sessionMove`. -/
def load (bytes : List Byte) (s : State) : LoadResult :=
  if Config.memSize < Config.progOrigin + bytes.length then .loadError
  else .ok { s with mem := copyBytes s.mem Config.progOrigin bytes }

end Sys2Proof.Machine
end

