-- ==== Sys2Proof/Machine/Session.lean ====
section
/-!
DEFINITION. The host's moves between steps (20_memory.md R65), its liberties and its duties
(70_reset_and_hazards.md R143, R144, R151). A duty the host never breaks is a move the model has not.
-/

namespace Sys2Proof.Machine

/-- The core with what the host's duties speak of: whether `load` was called since the last reset, and whether it
answered LoadError (R62, R123). Both are the host's own bookkeeping, not core state (R18). -/
structure Session where
  core : State
  loaded : Bool
  loadFailed : Bool
  deriving DecidableEq, Repr

/-- One operation of the host (R43, R151). `reset` carries the draw of `V_RESET` that this reset leaves (R23). -/
inductive HostMove where
  | reset (vReset : Vector Byte 16)
  | load (bytes : List Byte)
  | tick
  | timerRead (t : Timer)
  | timerWrite (t : Timer) (b : Byte)
  | timerDecrement
  | fbSnapshot
  | status
  deriving DecidableEq, Repr

/-- What the core answers to the host (R151). -/
inductive HostReply where
  | none
  | loadOk
  | loadError
  | ticked (r : Report) (t : Option TraceRecord)
  | timer (b : Byte)
  | framebuffer (fb : Framebuffer)
  | status (st : Status)
  deriving DecidableEq, Repr

/-- `reset` (R142, R143): every element takes its reset value and nothing survives. -/
def sessionReset (vReset : Vector Byte 16) : Session :=
  { core := State.resetWith vReset, loaded := false, loadFailed := false }

/-- `load`, once and only in Idle (R62, R144); after a LoadError the run must not continue (R123). -/
def sessionLoad (bytes : List Byte) (h : Session) : Option (Session × HostReply) :=
  if h.core.runState = .idle ∧ h.loaded = false then
    match load bytes h.core with
    | .ok s => some ({ core := s, loaded := true, loadFailed := false }, .loadOk)
    | .loadError => some ({ h with loaded := true, loadFailed := true }, .loadError)
  else none

/-- `tick`, never after a failed load (R123, R144). -/
def sessionTick (h : Session) : Option (Session × HostReply) :=
  if h.loadFailed then none
  else
    match step h.core with
    | .next s => some ({ h with core := s }, .ticked (report h.core) (trace h.core))
    | .fault _ => none
    | .refused _ => none

/-- One move of the host; `none` where the model has no such move (R151). -/
def sessionMove (h : Session) : HostMove → Option (Session × HostReply)
  | .reset vReset => some (sessionReset vReset, .none)
  | .load bytes => sessionLoad bytes h
  | .tick => sessionTick h
  | .timerRead t => some (h, .timer (timerRead t h.core))
  | .timerWrite t b => some ({ h with core := timerWrite t b h.core }, .none)
  | .timerDecrement => some ({ h with core := timerDecrement h.core }, .none)
  | .fbSnapshot => some (h, .framebuffer (fbSnapshot h.core))
  | .status => some (h, .status (status h.core))

end Sys2Proof.Machine
end

