-- ==== Sys2Proof/Safety.lean ====
section
/-!
DEFINITION. What claims speak of: the invariant of every state the core can reach, what "unchanged" means for each
kind of state, a fault taken, the faults the spec lists, and how a run ends.
-/

namespace Sys2Proof.Machine

/-! ### Unchanged state -/

/-- Every general register reads the same. -/
def SameV (s t : State) : Prop := ∀ r : Reg, t.getV r = s.getV r

/-- Every byte of memory reads the same. -/
def SameMem (s t : State) : Prop := ∀ a : Nat, t.mem.read a = s.mem.read a

/-- `SP` and every call-stack entry are the same. -/
def SameStack (s t : State) : Prop := t.sp = s.sp ∧ ∀ k : Nat, t.stack.read k = s.stack.read k

/-- Every framebuffer cell is the same. -/
def SameFb (s t : State) : Prop := ∀ row col : Nat, t.fb.cell row col = s.fb.cell row col

/-- Both timers are the same. -/
def SameTimers (s t : State) : Prop := t.dt = s.dt ∧ t.st = s.st

/-- The fault record is the same. -/
def SameRecord (s t : State) : Prop :=
  t.faultCode = s.faultCode ∧ t.faultPc = s.faultPc ∧ t.faultOpcode = s.faultOpcode ∧ t.faultAddr = s.faultAddr

/-- How every instruction that completes ends: `PC` at `target`, `RUN_STATE` Running (10_state.md R32), and what no
instruction writes (the timers R37, the fault record R31) as it was. -/
def CompletedAt (target : Nat) (s t : State) : Prop :=
  t.pc.toNat = target ∧ t.runState = .running ∧ SameTimers s t ∧ SameRecord s t

/-- A fault taken (60_exceptions.md R125): the status registers hold the record of the instruction at `PC`, and every
other element keeps its value from before the tick. -/
structure FaultTaken (code : FaultCode) (opcode : Opcode) (addr : Nat) (s t : State) : Prop where
  runState : t.runState = .halted
  faultCode : t.faultCode = code
  faultPc : t.faultPc = s.pc
  faultOpcode : t.faultOpcode = opcode
  faultAddr : t.faultAddr.toNat = addr
  v : t.v = s.v
  pc : t.pc = s.pc
  i : t.i = s.i
  sp : t.sp = s.sp
  stack : t.stack = s.stack
  dt : t.dt = s.dt
  st : t.st = s.st
  mem : t.mem = s.mem
  fb : t.fb = s.fb

/-- The elements outside `V`, `PC` and the executor status are as they were: `I`, the call stack, memory, the
framebuffer. -/
def SameOutsideV (s t : State) : Prop := t.i = s.i ∧ SameStack s t ∧ SameMem s t ∧ SameFb s t

/-- Everything but `PC` and `RUN_STATE` is as it was (with `CompletedAt`). -/
def SameAllButPc (s t : State) : Prop := SameV s t ∧ SameOutsideV s t

/-- The word with value `w` is the instruction's encoding, and the only one it has (30_encoding.md R72, R75, R76). -/
def HasWord (i : Instr) (w : Nat) : Prop :=
  (encode i).toNat = w ∧ ∀ v : Opcode, decode v = .instr i ↔ v.toNat = w

/-- How an instruction whose only remaining check is `NextPC(target)` (10_state.md R27) runs: with the target below
4096 `exec` ANSWERS a next state, completed at the target, in which `post` holds; otherwise it takes OutOfBounds(target)
and writes nothing else. -/
def RunsTo (i : Instr) (s : State) (target : Nat) (post : State → Prop) : Prop :=
  (target < 4096 → ∃ t, exec i s = .next t ∧ CompletedAt target s t ∧ post t) ∧
  (4096 ≤ target → ∃ t, exec i s = .next t ∧ FaultTaken .outOfBounds (encode i) target s t)

/-! ### The invariant -/

/-- What holds in every state the core can reach. -/
structure State.Inv (s : State) : Prop where
  /-- `PC` stays within `[0, 4096)` (10_state.md R24). -/
  pc : s.pc.toNat < 4096
  /-- `sp` never exceeds the stack capacity (R35). -/
  sp : s.sp ≤ Config.stackCapacity
  /-- Memory is in canonical form, within 4096 bytes (R39). -/
  mem : s.mem.wf = true
  /-- The call stack is in canonical form, within `STACK_CAPACITY` entries (R34). -/
  stack : s.stack.wf = true
  /-- Every entry is 0 or a return address `A + 2 <= 0x1000` (40_control_flow.md R88). -/
  returns : ∀ k : Nat, (s.stack.read k).toNat ≤ 4096
  /-- While the core is not Halted the fault record holds its reset values (R33). -/
  record : s.runState ≠ .halted →
    s.faultCode = .none ∧ s.faultPc = 0 ∧ s.faultOpcode = 0 ∧ s.faultAddr = 0
  /-- In Halted the record names a fault of the instruction at `PC`, with legal values (R31, 60_exceptions.md R121). -/
  halted : s.runState = .halted →
    s.faultCode ≠ .none ∧ s.faultPc = s.pc ∧ s.faultAddr.toNat ≤ 0x1000E ∧
    (s.faultCode = .outOfBounds ↔ 4096 ≤ s.faultAddr.toNat) ∧
    (s.faultCode ≠ .outOfBounds → s.faultAddr = 0)

/-! ### Which instruction touches what (10_state.md R21, R29; 20_memory.md R51) -/

/-- Whether an instruction writes a general register, as the table of R21 lists them. -/
def writesReg (i : Instr) (r : Reg) : Bool :=
  match i with
  | .clear | .ret | .jump _ | .call _ => false
  | .skipEqImm _ _ | .skipNeqImm _ _ | .skipEqReg _ _ | .skipNeqReg _ _ => false
  | .loadI _ | .addI _ | .storeBcd _ | .storeRegs _ => false
  | .loadImm x _ | .addImm x _ => r == x
  | .loadReg x _ | .orReg x _ | .andReg x _ | .xorReg x _ => r == x
  | .addReg x _ | .subReg x _ | .subnReg x _ | .shiftRight x _ | .shiftLeft x _ => r == x || r == 0xF#4
  | .draw _ _ _ => r == 0xF#4
  | .loadRegs x => decide (r.toNat ≤ x.toNat)

/-- How many bytes of memory an instruction writes from `I` on (R51). -/
def storeWidth : Instr → Nat
  | .storeBcd _ => 3
  | .storeRegs x => x.toNat + 1
  | .clear | .ret | .jump _ | .call _ | .skipEqImm _ _ | .skipNeqImm _ _ | .skipEqReg _ _ | .skipNeqReg _ _ => 0
  | .loadImm _ _ | .addImm _ _ | .loadReg _ _ | .orReg _ _ | .andReg _ _ | .xorReg _ _ | .addReg _ _ => 0
  | .subReg _ _ | .subnReg _ _ | .shiftRight _ _ | .shiftLeft _ _ | .loadI _ | .addI _ | .draw _ _ _ => 0
  | .loadRegs _ => 0

/-- How many bytes of data memory an instruction touches from `I` on, read or written (R51). -/
def dataWidth : Instr → Nat
  | .draw _ _ n => n.toNat
  | .storeBcd _ => 3
  | .storeRegs x => x.toNat + 1
  | .loadRegs x => x.toNat + 1
  | .clear | .ret | .jump _ | .call _ | .skipEqImm _ _ | .skipNeqImm _ _ | .skipEqReg _ _ | .skipNeqReg _ _ => 0
  | .loadImm _ _ | .addImm _ _ | .loadReg _ _ | .orReg _ _ | .andReg _ _ | .xorReg _ _ | .addReg _ _ => 0
  | .subReg _ _ | .subnReg _ _ | .shiftRight _ _ | .shiftLeft _ _ | .loadI _ | .addI _ => 0

/-! ### The faults the spec lists (60_exceptions.md R122, R124) -/

/-- The stack fault an instruction meets. -/
def stackFaultOf (i : Instr) (s : State) : Option Fault :=
  match i with
  | .call _ => if Config.stackCapacity ≤ s.sp then some .stackOverflow else none
  | .ret => if s.sp = 0 then some .stackUnderflow else none
  | _ => none

/-- The data-address fault an instruction meets: the first address out of range, `max(I, 4096)` (20_memory.md R61). -/
def dataFaultOf (i : Instr) (s : State) : Option Fault :=
  if dataWidth i ≠ 0 ∧ 4096 ≤ s.i.toNat + dataWidth i - 1 then some (.outOfBounds (max s.i.toNat 4096)) else none

/-- The next `PC` of an instruction at `A = PC`, as an unbounded integer (10_state.md R25, R27). -/
def nextPcOf (i : Instr) (s : State) : Nat :=
  match i with
  | .ret => (s.stack.read (s.sp - 1)).toNat
  | .jump nnn => nnn.toNat
  | .call nnn => nnn.toNat
  | .skipEqImm x kk => if s.getV x = kk then s.pc.toNat + 4 else s.pc.toNat + 2
  | .skipNeqImm x kk => if s.getV x = kk then s.pc.toNat + 2 else s.pc.toNat + 4
  | .skipEqReg x y => if s.getV x = s.getV y then s.pc.toNat + 4 else s.pc.toNat + 2
  | .skipNeqReg x y => if s.getV x = s.getV y then s.pc.toNat + 2 else s.pc.toNat + 4
  | _ => s.pc.toNat + 2

/-- The fault of a next `PC` out of range. -/
def targetFaultOf (target : Nat) : Option Fault := if 4096 ≤ target then some (.outOfBounds target) else none

/-- The fault an instruction records, if any: the first of R124's order, stack, data address, next `PC`. -/
def instrFaultOf (i : Instr) (s : State) : Option Fault :=
  (stackFaultOf i s).or ((dataFaultOf i s).or (targetFaultOf (nextPcOf i s)))

/-- The fault of a tick in Idle or Running, with the opcode it records (R122): fetch first, with opcode 0
(30_encoding.md R83). -/
def tickFaultOf (s : State) : Option (Fault × Opcode) :=
  if 4096 ≤ s.pc.toNat + 1 then some (.outOfBounds (s.pc.toNat + 1), 0)
  else
    let w := opcodeOfBytes (s.mem.read s.pc.toNat) (s.mem.read (s.pc.toNat + 1))
    match decode w with
    | .instr i => (instrFaultOf i s).map fun f => (f, w)
    | .unrecognized _ => (targetFaultOf (s.pc.toNat + 2)).map fun f => (f, w)

/-! ### The sprite of a DRAW, cell by cell (43_display.md R116) -/

/-- The cell `(row, col)` lies under a 1 bit of the `n`-row sprite at `I`, drawn with its origin at column `V[x]`, row
`V[y]`: bit 7 of a sprite byte is its leftmost pixel, and every coordinate wraps. -/
def UnderSprite (s : State) (x y : Reg) (n : BitVec 4) (row col : Nat) : Prop :=
  ∃ r c : Nat, r < n.toNat ∧ c < 8 ∧ (s.mem.read (s.i.toNat + r)).getLsbD (7 - c) = true ∧
    row = ((s.getV y).toNat + r) % 32 ∧ col = ((s.getV x).toNat + c) % 64

/-! ### End of a run (70_reset_and_hazards.md R146) -/

/-- A run ended by a fault. -/
def Faulted (s : State) : Prop := s.runState = .halted

/-- Parked: the instruction at `PC` is JUMP to its own address. -/
def Parked (s : State) : Prop :=
  s.pc.toNat + 1 < 4096 ∧ ∃ nnn : BitVec 12, nnn.toNat = s.pc.toNat ∧
    decode (opcodeOfBytes (s.mem.read s.pc.toNat) (s.mem.read (s.pc.toNat + 1))) = .instr (.jump nnn)

end Sys2Proof.Machine
end

