-- ==== Sys2Proof/Certificates/Slice0/Obligations.lean ====
section
/-!
DEFINITION. The statements for the provers. Each docstring names the rule of spec/ it formalises. Every statement
holds for every `STACK_CAPACITY >= 16` (it is opaque) and, where it speaks of reset, for every draw of `V_RESET`. `HasWord` states an instruction's encoding,
`RunsTo` where it completes and where its next `PC` faults (Safety.lean).
-/

open Sys2Proof Sys2Proof.Machine

/-! ### Encoding and decode -/

/-- Decode and encode agree on every instruction at every operand value (30_encoding.md R71, R72, R75, R76). -/
def Obligations.DecodeOfEncode : Prop :=
  ∀ i : Instr, decode (encode i) = .instr i

/-- A recognized word is the word of the instruction it decodes to: decode drops no bit (R72, R74). So the opcode a
fault records is the word that was fetched (log entry 4). -/
def Obligations.EncodeOfDecode : Prop :=
  ∀ (w : Opcode) (i : Instr), decode w = .instr i → encode i = w

/-- R74: a word is recognized exactly when all fixed bits of some row of the opcode table match. -/
def Obligations.RecognizedIffTableRowMatches : Prop :=
  ∀ w : Opcode, (∃ i, decode w = .instr i) ↔ ∃ r ∈ opcodeTable, matchesRow w r = true

/-- No word matches two rows of the opcode table, so decode is unambiguous (R74, R75, R76). -/
def Obligations.OpcodeTableUnambiguous : Prop :=
  ∀ (w : Opcode), ∀ r ∈ opcodeTable, ∀ q ∈ opcodeTable, matchesRow w r = true → matchesRow w q = true → r = q

/-- R75, R76: the two levels of the opcode map, row by row, on the value of the word; the fields are those of R71. -/
def Obligations.DecodeFollowsOpcodeMap : Prop :=
  ∀ (w : Opcode) (x y : Reg) (n : BitVec 4) (kk : Byte) (nnn : BitVec 12),
    x.toNat = w.toNat / 256 % 16 → y.toNat = w.toNat / 16 % 16 → n.toNat = w.toNat % 16 → kk.toNat = w.toNat % 256 →
    nnn.toNat = w.toNat % 4096 →
    (w.toNat / 4096 = 0x0 → w.toNat = 0x00E0 → decode w = .instr .clear) ∧
    (w.toNat / 4096 = 0x0 → w.toNat = 0x00EE → decode w = .instr .ret) ∧
    (w.toNat / 4096 = 0x0 → w.toNat ≠ 0x00E0 → w.toNat ≠ 0x00EE → ∃ g, decode w = .unrecognized g) ∧
    (w.toNat / 4096 = 0x1 → decode w = .instr (.jump nnn)) ∧
    (w.toNat / 4096 = 0x2 → decode w = .instr (.call nnn)) ∧
    (w.toNat / 4096 = 0x3 → decode w = .instr (.skipEqImm x kk)) ∧
    (w.toNat / 4096 = 0x4 → decode w = .instr (.skipNeqImm x kk)) ∧
    (w.toNat / 4096 = 0x5 → n.toNat = 0x0 → decode w = .instr (.skipEqReg x y)) ∧
    (w.toNat / 4096 = 0x5 → n.toNat ≠ 0x0 → ∃ g, decode w = .unrecognized g) ∧
    (w.toNat / 4096 = 0x6 → decode w = .instr (.loadImm x kk)) ∧
    (w.toNat / 4096 = 0x7 → decode w = .instr (.addImm x kk)) ∧
    (w.toNat / 4096 = 0x8 → n.toNat = 0x0 → decode w = .instr (.loadReg x y)) ∧
    (w.toNat / 4096 = 0x8 → n.toNat = 0x1 → decode w = .instr (.orReg x y)) ∧
    (w.toNat / 4096 = 0x8 → n.toNat = 0x2 → decode w = .instr (.andReg x y)) ∧
    (w.toNat / 4096 = 0x8 → n.toNat = 0x3 → decode w = .instr (.xorReg x y)) ∧
    (w.toNat / 4096 = 0x8 → n.toNat = 0x4 → decode w = .instr (.addReg x y)) ∧
    (w.toNat / 4096 = 0x8 → n.toNat = 0x5 → decode w = .instr (.subReg x y)) ∧
    (w.toNat / 4096 = 0x8 → n.toNat = 0x6 → decode w = .instr (.shiftRight x y)) ∧
    (w.toNat / 4096 = 0x8 → n.toNat = 0x7 → decode w = .instr (.subnReg x y)) ∧
    (w.toNat / 4096 = 0x8 → n.toNat = 0xE → decode w = .instr (.shiftLeft x y)) ∧
    (w.toNat / 4096 = 0x8 → 0x8 ≤ n.toNat → n.toNat ≠ 0xE → ∃ g, decode w = .unrecognized g) ∧
    (w.toNat / 4096 = 0x9 → n.toNat = 0x0 → decode w = .instr (.skipNeqReg x y)) ∧
    (w.toNat / 4096 = 0x9 → n.toNat ≠ 0x0 → ∃ g, decode w = .unrecognized g) ∧
    (w.toNat / 4096 = 0xA → decode w = .instr (.loadI nnn)) ∧
    (w.toNat / 4096 = 0xB → ∃ g, decode w = .unrecognized g) ∧
    (w.toNat / 4096 = 0xC → ∃ g, decode w = .unrecognized g) ∧
    (w.toNat / 4096 = 0xD → decode w = .instr (.draw x y n)) ∧
    (w.toNat / 4096 = 0xE → ∃ g, decode w = .unrecognized g) ∧
    (w.toNat / 4096 = 0xF → kk.toNat = 0x1E → decode w = .instr (.addI x)) ∧
    (w.toNat / 4096 = 0xF → kk.toNat = 0x33 → decode w = .instr (.storeBcd x)) ∧
    (w.toNat / 4096 = 0xF → kk.toNat = 0x55 → decode w = .instr (.storeRegs x)) ∧
    (w.toNat / 4096 = 0xF → kk.toNat = 0x65 → decode w = .instr (.loadRegs x)) ∧
    (w.toNat / 4096 = 0xF → kk.toNat ∉ [0x1E, 0x33, 0x55, 0x65] → ∃ g, decode w = .unrecognized g)

/-- R77: the unrecognized words, group by group, as the table of R77 lists them. -/
def Obligations.UnrecognizedGroups : Prop :=
  ∀ w : Opcode,
    (decode w = .unrecognized .zeroFamily ↔ w.toNat < 0x1000 ∧ w.toNat ≠ 0x00E0 ∧ w.toNat ≠ 0x00EE) ∧
    (decode w = .unrecognized .fiveFamily ↔ w.toNat / 4096 = 5 ∧ w.toNat % 16 ≠ 0) ∧
    (decode w = .unrecognized .eightFamily ↔ w.toNat / 4096 = 8 ∧ w.toNat % 16 ∈ [8, 9, 10, 11, 12, 13, 15]) ∧
    (decode w = .unrecognized .nineFamily ↔ w.toNat / 4096 = 9 ∧ w.toNat % 16 ≠ 0) ∧
    (decode w = .unrecognized .noFamily ↔ w.toNat / 4096 = 0xB ∨ w.toNat / 4096 = 0xC ∨ w.toNat / 4096 = 0xE) ∧
    (decode w = .unrecognized .fFamily ↔ w.toNat / 4096 = 0xF ∧ w.toNat % 256 ∉ [0x1E, 0x33, 0x55, 0x65])

/-- Words written out from the spec's formats decode to the instructions they stand for, one family after the other, and
the close misses of 95_test_vectors.md are unrecognized. -/
def Obligations.SpecWordsDecode : Prop :=
  decode 0b0000000011100000#16 = .instr .clear ∧
  decode 0b0000000011101110#16 = .instr .ret ∧
  decode 0b0001001000110100#16 = .instr (.jump 0x234#12) ∧
  decode 0b0010001100000000#16 = .instr (.call 0x300#12) ∧
  decode 0b0011001101000010#16 = .instr (.skipEqImm 3#4 0x42#8) ∧
  decode 0b0101000100100000#16 = .instr (.skipEqReg 1#4 2#4) ∧
  decode 0b1000000000011110#16 = .instr (.shiftLeft 0#4 1#4) ∧
  decode 0b1010001011110000#16 = .instr (.loadI 0x2F0#12) ∧
  decode 0b1101000000010010#16 = .instr (.draw 0#4 1#4 2#4) ∧
  decode 0b1111010000011110#16 = .instr (.addI 4#4) ∧
  decode 0x5121#16 = .unrecognized .fiveFamily ∧
  decode 0x00E1#16 = .unrecognized .zeroFamily ∧
  decode 0xF01F#16 = .unrecognized .fFamily

/-- The assembler reads back the mnemonic and operands of every instruction (R80). -/
def Obligations.AssembleOfOperands : Prop :=
  ∀ i : Instr, assemble (mnemonicOf i) (operandsOf i) = some i

/-- R80: an assembler refuses a value that does not fit its field: `kk > 255`, `nnn > 0xFFF`, `n > 15`. -/
def Obligations.AssemblerRefusesUnfit : Prop :=
  ∀ x y v : Nat,
    (255 < v → ∀ m ∈ ["SKIP_EQ_IMM", "SKIP_NEQ_IMM", "LOAD_IMM", "ADD_IMM"], assemble m [.reg x, .num v] = none) ∧
    (0xFFF < v → ∀ m ∈ ["JUMP", "CALL", "LOAD_I"], assemble m [.num v] = none) ∧
    (15 < v → assemble "DRAW" [.reg x, .reg y, .num v] = none)

/-! ### Memory primitives and fetch -/

/-- R60: the byte primitives check their address before they touch memory. -/
def Obligations.BytePrimitivesCheckAddress : Prop :=
  ∀ (m : Memory) (a : Nat) (b : Byte), m.wf = true →
    (4096 ≤ a → memRead m a = .error (.outOfBounds a) ∧ memWrite m a b = .error (.outOfBounds a)) ∧
    (a < 4096 → memRead m a = .ok (m.read a) ∧
      ∃ m', memWrite m a b = .ok m' ∧ m'.read a = b ∧ ∀ c, c ≠ a → m'.read c = m.read c)

/-- R48: instruction fetch forms a big-endian word at any address, odd or even, and does not wrap. -/
def Obligations.FetchIsBigEndian : Prop :=
  ∀ (m : Memory) (a : Nat),
    (a + 1 < 4096 → ∃ w : Opcode, fetchWord m a = .ok w ∧ w.toNat = 256 * (m.read a).toNat + (m.read (a + 1)).toNat) ∧
    (4096 ≤ a + 1 → fetchWord m a = .error (.outOfBounds (a + 1)))

/-! ### The step -/

/-- A step runs the decoded instruction (R82, R84): with the core not Halted, when the two bytes at `PC` decode to an
instruction, `step` is `exec` of it, with nothing around it. -/
def Obligations.StepRunsDecodedInstruction : Prop :=
  ∀ (s : State) (i : Instr), s.runState ≠ .halted → s.pc.toNat + 1 < 4096 →
    decode (opcodeOfBytes (s.mem.read s.pc.toNat) (s.mem.read (s.pc.toNat + 1))) = .instr i →
    step s = exec i s

/-- R83: fetch changes nothing, and with `PC < 4096` it faults exactly at `0xFFF`, with `FAULT_PC = 0xFFF`,
`FAULT_OPCODE = 0x0000` and `FAULT_ADDR = 0x1000`. -/
def Obligations.FetchFaultOnlyAtTop : Prop :=
  ∀ s : State, s.runState ≠ .halted → s.pc.toNat < 4096 →
    ((∃ f, fetch s = .error f) ↔ s.pc = 0xFFF#16) ∧
    (s.pc = 0xFFF#16 → ∃ t, step s = .next t ∧ FaultTaken .outOfBounds 0x0000#16 0x1000 s t ∧ t.faultPc = 0xFFF#16)

/-- R119: an unrecognized opcode advances `PC` by 2 and is reported, and nothing else changes; when the next `PC` is out
of range it faults and makes no report. -/
def Obligations.UnrecognizedIsReportedAndSkipped : Prop :=
  ∀ (s : State) (w : Opcode) (g : UnrecognizedGroup), s.runState ≠ .halted → fetch s = .ok w →
    decode w = .unrecognized g →
    (s.pc.toNat + 2 < 4096 →
      report s = .unknownOpcode s.pc w ∧
      ∃ t, step s = .next t ∧ CompletedAt (s.pc.toNat + 2) s t ∧ SameAllButPc s t) ∧
    (4096 ≤ s.pc.toNat + 2 →
      report s = .none ∧ ∃ t, step s = .next t ∧ FaultTaken .outOfBounds w (s.pc.toNat + 2) s t)

/-- R127: in Halted a tick changes nothing and reports none; snapshot, timers and status keep working; load does not. -/
def Obligations.HaltedTickHasNoEffect : Prop :=
  ∀ h : Session, h.core.runState = .halted →
    step h.core = .next h.core ∧ report h.core = .none ∧
    (∀ bytes, sessionMove h (.load bytes) = none) ∧
    sessionMove h .fbSnapshot = some (h, .framebuffer h.core.fb) ∧
    sessionMove h (.timerRead .dt) = some (h, .timer h.core.dt) ∧
    sessionMove h (.timerRead .st) = some (h, .timer h.core.st) ∧
    (∀ b, sessionMove h (.timerWrite .dt b) = some ({ h with core := { h.core with dt := b } }, .none)) ∧
    (∀ b, sessionMove h (.timerWrite .st b) = some ({ h with core := { h.core with st := b } }, .none)) ∧
    (∃ h', sessionMove h .timerDecrement = some (h', .none)) ∧
    sessionMove h .status = some (h, .status (status h.core))

/-- R45: the report of a tick is UnknownOpcode(A, w) exactly when the instruction executed was an unrecognized opcode
and did not fault. -/
def Obligations.ReportExactlyUnrecognized : Prop :=
  ∀ (s : State) (p : Word) (w : Opcode),
    report s = .unknownOpcode p w ↔
      s.runState ≠ .halted ∧ p = s.pc ∧ fetch s = .ok w ∧ (∃ g, decode w = .unrecognized g) ∧
        ∃ t, step s = .next t ∧ t.runState = .running

/-- R46: a tick that completes puts the record of its instruction on `trace`; a tick that faults or finds the core Halted
puts none. The port is optional; when it emits is the model's choice (log entry 6). -/
def Obligations.TraceOfCompletedTick : Prop :=
  ∀ (s : State) (w : Opcode), fetch s = .ok w →
    (s.runState = .halted → trace s = none) ∧
    (s.runState ≠ .halted → ∃ t, step s = .next t ∧
      (t.runState ≠ .running → trace s = none) ∧
      (t.runState = .running → ∃ r, trace s = some r ∧ r.opcode = w ∧ r.pc = s.pc ∧
        (∀ i, decode w = .instr i → r.mnemonic = mnemonicOf i ∧ r.operands = operandsOf i) ∧
        (∀ g, decode w = .unrecognized g → r.mnemonic = "UNKNOWN")))

/-- Every tick of every state answers a next state: a fault is taken, not an outcome (R82, 60_exceptions.md R125). -/
def Obligations.StepAlwaysAnswersNext : Prop :=
  ∀ s : State, ∃ t, step s = .next t ∧ (s.runState = .halted → t = s) ∧
    (s.runState ≠ .halted → t.runState = .running ∨ t.runState = .halted)

/-- R124, R125: a tick takes the first fault it meets in R124's order, with the record and the report of R125, and
otherwise it completes with the fault record untouched. `tickFaultOf` lists the conditions (R48, R27, R116, R109 to R111,
R88, R86; gathered in R122). -/
def Obligations.StepFaultsExactlyAsListed : Prop :=
  ∀ s : State, s.runState ≠ .halted → ∃ t, step s = .next t ∧
    match tickFaultOf s with
    | some (.outOfBounds a, w) => FaultTaken .outOfBounds w a s t ∧ report s = .none
    | some (.stackOverflow, w) => FaultTaken .stackOverflow w 0 s t ∧ report s = .none
    | some (.stackUnderflow, w) => FaultTaken .stackUnderflow w 0 s t ∧ report s = .none
    | none => t.runState = .running ∧ SameRecord s t

/-- A tick either completes with the fault record untouched, or its fault is precise: only the executor status is
written, `FAULT_OPCODE` is the fetched word (0 for a fetch fault), `FAULT_ADDR` is an address out of range for OutOfBounds
and 0 otherwise, and `report` is none (R125, R52). -/
def Obligations.FaultsArePrecise : Prop :=
  ∀ s t : State, s.runState ≠ .halted → step s = .next t →
    (t.runState = .running ∧ SameRecord s t) ∨
    ∃ code w addr, code ≠ FaultCode.none ∧ FaultTaken code w addr s t ∧ report s = .none ∧
      (fetch s = .ok w ∨ ((∃ f, fetch s = .error f) ∧ w = 0)) ∧
      ((code = .outOfBounds ∧ 4096 ≤ addr) ∨ (code ≠ .outOfBounds ∧ addr = 0))

/-! ### Reset and the invariant -/

/-- R142: every element after `reset`, for every draw of `V_RESET`, whatever the session was. -/
def Obligations.ResetValues : Prop :=
  ∀ (h : Session) (vReset : Vector Byte 16), ∃ h', sessionMove h (.reset vReset) = some (h', .none) ∧
    (∀ r : Reg, h'.core.getV r = vReset[r.toNat]'r.isLt) ∧
    h'.core.pc.toNat = 0x200 ∧ h'.core.i = 0 ∧ h'.core.sp = 0 ∧ (∀ k, h'.core.stack.read k = 0) ∧
    h'.core.dt = 0 ∧ h'.core.st = 0 ∧ (∀ a, h'.core.mem.read a = 0) ∧
    (∀ row col, h'.core.fb.cell row col = false) ∧ h'.core.runState = .idle ∧
    h'.core.faultCode = .none ∧ h'.core.faultPc = 0 ∧ h'.core.faultOpcode = 0 ∧ h'.core.faultAddr = 0

/-- The invariant holds after reset, for every draw of `V_RESET`. -/
def Obligations.ResetMeetsInvariant : Prop :=
  ∀ vReset : Vector Byte 16, (State.resetWith vReset).Inv

/-- Every step keeps the invariant: `PC` in range (R24), `SP` within capacity (R35), memory and call stack canonical and
within bounds (R34, R39), return addresses at most `0x1000` (R88), and the fault record as R31 and R33 say. -/
def Obligations.StepKeepsInvariant : Prop :=
  ∀ s t : State, s.Inv → step s = .next t → t.Inv

/-- Every move of the host keeps the invariant of the core (R65, R151). -/
def Obligations.HostMovesKeepInvariant : Prop :=
  ∀ (h h' : Session) (m : HostMove) (r : HostReply), h.core.Inv → sessionMove h m = some (h', r) → h'.core.Inv

/-! ### Control flow -/

/-- R87: JUMP sets `PC` to `nnn`, odd or even, and never faults. -/
def Obligations.JumpSetsPc : Prop :=
  ∀ (nnn : BitVec 12) (s : State),
    HasWord (.jump nnn) (0x1000 + nnn.toNat) ∧
    ∃ t, exec (.jump nnn) s = .next t ∧ CompletedAt nnn.toNat s t ∧ SameAllButPc s t

/-- R88: CALL pushes the address after itself and jumps; with the stack full it takes StackOverflow and leaves `SP` and
`STACK` unchanged. -/
def Obligations.CallPushesReturnAddress : Prop :=
  ∀ (nnn : BitVec 12) (s : State), s.stack.wf = true →
    HasWord (.call nnn) (0x2000 + nnn.toNat) ∧
    (s.sp < Config.stackCapacity → ∃ t, exec (.call nnn) s = .next t ∧ CompletedAt nnn.toNat s t ∧
      t.sp = s.sp + 1 ∧ t.stack.read s.sp = s.pc + 2#16 ∧ (∀ k, k ≠ s.sp → t.stack.read k = s.stack.read k) ∧
      SameV s t ∧ t.i = s.i ∧ SameMem s t ∧ SameFb s t) ∧
    (s.sp = Config.stackCapacity →
      ∃ t, exec (.call nnn) s = .next t ∧ FaultTaken .stackOverflow (encode (.call nnn)) 0 s t)

/-- R86: RETURN pops the next `PC`, adding nothing; StackUnderflow with an empty stack is checked first; a popped
address out of range is OutOfBounds. The popped entry keeps its value. -/
def Obligations.ReturnPopsPc : Prop :=
  ∀ s : State, HasWord .ret 0x00EE ∧
    (s.sp = 0 → ∃ t, exec .ret s = .next t ∧ FaultTaken .stackUnderflow 0x00EE#16 0 s t) ∧
    (0 < s.sp → (s.stack.read (s.sp - 1)).toNat < 4096 →
      ∃ t, exec .ret s = .next t ∧ CompletedAt (s.stack.read (s.sp - 1)).toNat s t ∧ t.sp = s.sp - 1 ∧
        (∀ k, t.stack.read k = s.stack.read k) ∧ SameV s t ∧ t.i = s.i ∧ SameMem s t ∧ SameFb s t) ∧
    (0 < s.sp → 4096 ≤ (s.stack.read (s.sp - 1)).toNat →
      ∃ t, exec .ret s = .next t ∧ FaultTaken .outOfBounds 0x00EE#16 (s.stack.read (s.sp - 1)).toNat s t)

/-- R94: after a CALL at `A`, the RETURN that pops its entry (from any state with the `SP` and the entry the CALL left)
sets `PC = A + 2` and leaves `SP` as it was before the CALL. -/
def Obligations.CallThenReturn : Prop :=
  ∀ (nnn : BitVec 12) (s : State), s.stack.wf = true → s.sp < Config.stackCapacity → s.pc.toNat + 2 < 4096 →
    ∃ t, exec (.call nnn) s = .next t ∧
      ∀ u : State, u.sp = t.sp → u.stack.read s.sp = t.stack.read s.sp →
        ∃ v, exec .ret u = .next v ∧ v.pc.toNat = s.pc.toNat + 2 ∧ v.sp = s.sp ∧ v.runState = .running

/-- R89, R90: the skips on an immediate advance by 4 when taken and by 2 when not, and write nothing else. -/
def Obligations.SkipOnImmediate : Prop :=
  ∀ (x : Reg) (kk : Byte) (s : State),
    HasWord (.skipEqImm x kk) (0x3000 + 256 * x.toNat + kk.toNat) ∧
    HasWord (.skipNeqImm x kk) (0x4000 + 256 * x.toNat + kk.toNat) ∧
    RunsTo (.skipEqImm x kk) s (if s.getV x = kk then s.pc.toNat + 4 else s.pc.toNat + 2) (SameAllButPc s) ∧
    RunsTo (.skipNeqImm x kk) s (if s.getV x = kk then s.pc.toNat + 2 else s.pc.toNat + 4) (SameAllButPc s)

/-- R91, R92: the skips on two registers; with `x = y` the first always skips and the second never. -/
def Obligations.SkipOnRegisters : Prop :=
  ∀ (x y : Reg) (s : State),
    HasWord (.skipEqReg x y) (0x5000 + 256 * x.toNat + 16 * y.toNat) ∧
    HasWord (.skipNeqReg x y) (0x9000 + 256 * x.toNat + 16 * y.toNat) ∧
    RunsTo (.skipEqReg x y) s (if s.getV x = s.getV y then s.pc.toNat + 4 else s.pc.toNat + 2) (SameAllButPc s) ∧
    RunsTo (.skipNeqReg x y) s (if s.getV x = s.getV y then s.pc.toNat + 2 else s.pc.toNat + 4) (SameAllButPc s)

/-- R146: in a parked state every further tick leaves the state unchanged. -/
def Obligations.ParkedStateIsUnchanged : Prop :=
  ∀ s : State, s.runState = .running → Parked s → step s = .next s

/-! ### Register loads and arithmetic -/

/-- R96, R97: LOAD_IMM writes `kk`; ADD_IMM writes the sum mod 256 and no flag (with `x = 0xF` the sum is the
destination). -/
def Obligations.ImmediateLoadAndAdd : Prop :=
  ∀ (x : Reg) (kk : Byte) (s : State),
    HasWord (.loadImm x kk) (0x6000 + 256 * x.toNat + kk.toNat) ∧
    HasWord (.addImm x kk) (0x7000 + 256 * x.toNat + kk.toNat) ∧
    RunsTo (.loadImm x kk) s (s.pc.toNat + 2) (fun t =>
      (∀ r, t.getV r = if r = x then kk else s.getV r) ∧ SameOutsideV s t) ∧
    RunsTo (.addImm x kk) s (s.pc.toNat + 2) (fun t =>
      (∀ r, (t.getV r).toNat = if r = x then ((s.getV x).toNat + kk.toNat) % 256 else (s.getV r).toNat) ∧
      SameOutsideV s t)

/-- R98 to R101: LOAD_REG copies; OR, AND and XOR combine bit by bit; none writes a flag. -/
def Obligations.RegisterCopyAndLogic : Prop :=
  ∀ (x y : Reg) (s : State),
    HasWord (.loadReg x y) (0x8000 + 256 * x.toNat + 16 * y.toNat) ∧
    HasWord (.orReg x y) (0x8001 + 256 * x.toNat + 16 * y.toNat) ∧
    HasWord (.andReg x y) (0x8002 + 256 * x.toNat + 16 * y.toNat) ∧
    HasWord (.xorReg x y) (0x8003 + 256 * x.toNat + 16 * y.toNat) ∧
    RunsTo (.loadReg x y) s (s.pc.toNat + 2) (fun t =>
      (∀ r, t.getV r = if r = x then s.getV y else s.getV r) ∧ SameOutsideV s t) ∧
    RunsTo (.orReg x y) s (s.pc.toNat + 2) (fun t =>
      (∀ k, (t.getV x).getLsbD k = ((s.getV x).getLsbD k || (s.getV y).getLsbD k)) ∧
      (∀ r, r ≠ x → t.getV r = s.getV r) ∧ SameOutsideV s t) ∧
    RunsTo (.andReg x y) s (s.pc.toNat + 2) (fun t =>
      (∀ k, (t.getV x).getLsbD k = ((s.getV x).getLsbD k && (s.getV y).getLsbD k)) ∧
      (∀ r, r ≠ x → t.getV r = s.getV r) ∧ SameOutsideV s t) ∧
    RunsTo (.xorReg x y) s (s.pc.toNat + 2) (fun t =>
      (∀ k, (t.getV x).getLsbD k = ((s.getV x).getLsbD k ^^ (s.getV y).getLsbD k)) ∧
      (∀ r, r ≠ x → t.getV r = s.getV r) ∧ SameOutsideV s t)

/-- R102: ADD_REG writes the carry to `V[0xF]`, then the sum mod 256 to `V[x]`; with `x = 0xF` the sum stays. -/
def Obligations.AddRegSumAndCarry : Prop :=
  ∀ (x y : Reg) (s : State), HasWord (.addReg x y) (0x8004 + 256 * x.toNat + 16 * y.toNat) ∧
    RunsTo (.addReg x y) s (s.pc.toNat + 2) (fun t =>
    (∀ r, (t.getV r).toNat =
      if r = x then ((s.getV x).toNat + (s.getV y).toNat) % 256
      else if r = 0xF#4 then (if 255 < (s.getV x).toNat + (s.getV y).toNat then 1 else 0)
      else (s.getV r).toNat) ∧ SameOutsideV s t)

/-- R103, R105: SUB_REG and SUBN_REG write NOT borrow to `V[0xF]`, then the difference mod 256 to `V[x]`, all from the
operands as they stood before (C13). -/
def Obligations.SubtractionsAndBorrow : Prop :=
  ∀ (x y : Reg) (s : State),
    HasWord (.subReg x y) (0x8005 + 256 * x.toNat + 16 * y.toNat) ∧
    HasWord (.subnReg x y) (0x8007 + 256 * x.toNat + 16 * y.toNat) ∧
    RunsTo (.subReg x y) s (s.pc.toNat + 2) (fun t =>
      (∀ r, ((t.getV r).toNat : Int) =
        if r = x then (((s.getV x).toNat : Int) - ((s.getV y).toNat : Int)) % 256
        else if r = 0xF#4 then (if (s.getV y).toNat ≤ (s.getV x).toNat then 1 else 0)
        else ((s.getV r).toNat : Int)) ∧ SameOutsideV s t) ∧
    RunsTo (.subnReg x y) s (s.pc.toNat + 2) (fun t =>
      (∀ r, ((t.getV r).toNat : Int) =
        if r = x then (((s.getV y).toNat : Int) - ((s.getV x).toNat : Int)) % 256
        else if r = 0xF#4 then (if (s.getV x).toNat ≤ (s.getV y).toNat then 1 else 0)
        else ((s.getV r).toNat : Int)) ∧ SameOutsideV s t)

/-- R104, R106: the shifts take `V[y]`, write the bit shifted out to `V[0xF]`, then the result to `V[x]`. -/
def Obligations.ShiftsOfVy : Prop :=
  ∀ (x y : Reg) (s : State),
    HasWord (.shiftRight x y) (0x8006 + 256 * x.toNat + 16 * y.toNat) ∧
    HasWord (.shiftLeft x y) (0x800E + 256 * x.toNat + 16 * y.toNat) ∧
    RunsTo (.shiftRight x y) s (s.pc.toNat + 2) (fun t =>
      (∀ r, (t.getV r).toNat =
        if r = x then (s.getV y).toNat / 2 else if r = 0xF#4 then (s.getV y).toNat % 2 else (s.getV r).toNat) ∧
      SameOutsideV s t) ∧
    RunsTo (.shiftLeft x y) s (s.pc.toNat + 2) (fun t =>
      (∀ r, (t.getV r).toNat =
        if r = x then 2 * (s.getV y).toNat % 256
        else if r = 0xF#4 then (s.getV y).toNat / 128 else (s.getV r).toNat) ∧ SameOutsideV s t)

/-! ### Index register and memory transfers -/

/-- R107, R108: LOAD_I writes `nnn` to `I`; ADD_I adds `V[x]` modulo 65536; neither writes a flag. -/
def Obligations.IndexLoadAndAdd : Prop :=
  (∀ (nnn : BitVec 12) (s : State), HasWord (.loadI nnn) (0xA000 + nnn.toNat) ∧ RunsTo (.loadI nnn) s (s.pc.toNat + 2) (fun t =>
    t.i.toNat = nnn.toNat ∧ SameV s t ∧ SameStack s t ∧ SameMem s t ∧ SameFb s t)) ∧
  (∀ (x : Reg) (s : State), HasWord (.addI x) (0xF01E + 256 * x.toNat) ∧ RunsTo (.addI x) s (s.pc.toNat + 2) (fun t =>
    t.i.toNat = (s.i.toNat + (s.getV x).toNat) % 65536 ∧ SameV s t ∧ SameStack s t ∧ SameMem s t ∧ SameFb s t))

/-- R109: STORE_BCD writes the three decimal digits of `V[x]` at `I`, most significant first, and no other byte; with
`I + 2` out of range it faults with no byte written. -/
def Obligations.StoreBcdDigits : Prop :=
  ∀ (x : Reg) (s : State), s.mem.wf = true → dataBase s = s.i.toNat ∧
    HasWord (.storeBcd x) (0xF033 + 256 * x.toNat) ∧
    (dataBase s + 2 < 4096 → RunsTo (.storeBcd x) s (s.pc.toNat + 2) (fun t =>
      (t.mem.read (dataBase s)).toNat = (s.getV x).toNat / 100 ∧
      (t.mem.read (dataBase s + 1)).toNat = (s.getV x).toNat / 10 % 10 ∧
      (t.mem.read (dataBase s + 2)).toNat = (s.getV x).toNat % 10 ∧
      (∀ a, a < dataBase s ∨ dataBase s + 3 ≤ a → t.mem.read a = s.mem.read a) ∧
      t.i = s.i ∧ SameV s t ∧ SameStack s t ∧ SameFb s t)) ∧
    (4096 ≤ dataBase s + 2 → ∃ t, exec (.storeBcd x) s = .next t ∧
      FaultTaken .outOfBounds (encode (.storeBcd x)) (max s.i.toNat 4096) s t)

/-- R110: STORE_REGS writes `V[0]` to `V[x]` at `I` to `I + x`, inclusive, and no other byte; `I` is unchanged; with
`I + x` out of range it faults with no byte written. -/
def Obligations.StoreRegsToMemory : Prop :=
  ∀ (x : Reg) (s : State), s.mem.wf = true → dataBase s = s.i.toNat ∧
    HasWord (.storeRegs x) (0xF055 + 256 * x.toNat) ∧
    (dataBase s + x.toNat < 4096 → RunsTo (.storeRegs x) s (s.pc.toNat + 2) (fun t =>
      (∀ k : Reg, k.toNat ≤ x.toNat → t.mem.read (dataBase s + k.toNat) = s.getV k) ∧
      (∀ a, a < dataBase s ∨ dataBase s + x.toNat < a → t.mem.read a = s.mem.read a) ∧
      t.i = s.i ∧ SameV s t ∧ SameStack s t ∧ SameFb s t)) ∧
    (4096 ≤ dataBase s + x.toNat → ∃ t, exec (.storeRegs x) s = .next t ∧
      FaultTaken .outOfBounds (encode (.storeRegs x)) (max s.i.toNat 4096) s t)

/-- R111: LOAD_REGS reads `V[0]` to `V[x]` from `I` to `I + x`; registers above `x` and `I` are unchanged; with `I + x` out
of range it faults with no register written. -/
def Obligations.LoadRegsFromMemory : Prop :=
  ∀ (x : Reg) (s : State), HasWord (.loadRegs x) (0xF065 + 256 * x.toNat) ∧
    (s.i.toNat + x.toNat < 4096 → RunsTo (.loadRegs x) s (s.pc.toNat + 2) (fun t =>
      (∀ r : Reg, t.getV r = if r.toNat ≤ x.toNat then s.mem.read (s.i.toNat + r.toNat) else s.getV r) ∧
      SameOutsideV s t)) ∧
    (4096 ≤ s.i.toNat + x.toNat → ∃ t, exec (.loadRegs x) s = .next t ∧
      FaultTaken .outOfBounds (encode (.loadRegs x)) (max s.i.toNat 4096) s t)

/-- After STORE_REGS, a LOAD_REGS with the same `x` and `I` restores the registers, whatever was written to `V` in
between (R110, R111). -/
def Obligations.StoreRegsThenLoadRegs : Prop :=
  ∀ (x : Reg) (s : State) (v' : Vector Byte 16), s.mem.wf = true → s.i.toNat + x.toNat < 4096 →
    s.pc.toNat + 4 < 4096 →
    ∃ t u, exec (.storeRegs x) s = .next t ∧ exec (.loadRegs x) { t with v := v' } = .next u ∧
      (∀ k : Reg, k.toNat ≤ x.toNat → u.getV k = s.getV k) ∧ u.runState = .running

/-- R68: a store is seen by the next fetch of its bytes: after STORE_REGS the word at `I + k` is `V[k]`, `V[k+1]`. -/
def Obligations.StoresAreSeenByFetch : Prop :=
  ∀ (x k : Reg) (s : State), s.mem.wf = true → s.i.toNat + x.toNat < 4096 → s.pc.toNat + 2 < 4096 →
    k.toNat < x.toNat →
    ∃ t, exec (.storeRegs x) s = .next t ∧
      fetchWord t.mem (s.i.toNat + k.toNat) = .ok (opcodeOfBytes (s.getV k) (s.getV (k + 1#4)))

/-! ### Framebuffer -/

/-- R114: the XOR primitive toggles the wrapped cell, leaves every other cell, and returns the new value. -/
def Obligations.XorPixelTogglesOneCell : Prop :=
  ∀ (fb : Framebuffer) (row col : Nat),
    Framebuffer.cell (xorPixel fb row col).1 (row % 32) (col % 64) = !(fb.cell (row % 32) (col % 64)) ∧
    (xorPixel fb row col).2 = !(fb.cell (row % 32) (col % 64)) ∧
    ∀ r c, r < 32 → c < 64 → ¬ (r = row % 32 ∧ c = col % 64) →
      Framebuffer.cell (xorPixel fb row col).1 r c = fb.cell r c

/-- R113: CLEAR turns every cell off and changes no register or memory byte. -/
def Obligations.ClearTurnsEveryCellOff : Prop :=
  ∀ s : State, HasWord .clear 0x00E0 ∧ RunsTo .clear s (s.pc.toNat + 2) (fun t =>
    (∀ row col, t.fb.cell row col = false) ∧ SameV s t ∧ t.i = s.i ∧ SameStack s t ∧ SameMem s t)

/-- One DRAW never reaches the same cell twice (R117). -/
def Obligations.SpriteCellsAreDistinct : Prop :=
  ∀ (cx cy : Nat) (rows : List Byte), rows.length ≤ 15 → (spriteCells cx cy rows).Nodup

/-- R116: DRAW toggles exactly the cells under the sprite's 1 bits and writes the collision to `V[0xF]`, both from the
state before the instruction; with sprite bytes out of range it faults with no cell changed. -/
def Obligations.DrawTogglesSpriteCells : Prop :=
  ∀ (x y : Reg) (n : BitVec 4) (s : State),
    HasWord (.draw x y n) (0xD000 + 256 * x.toNat + 16 * y.toNat + n.toNat) ∧
    (n = 0 ∨ s.i.toNat + n.toNat - 1 < 4096 → RunsTo (.draw x y n) s (s.pc.toNat + 2) (fun t =>
      (∀ row col, row < 32 → col < 64 →
        (UnderSprite s x y n row col → t.fb.cell row col = !(s.fb.cell row col)) ∧
        (¬ UnderSprite s x y n row col → t.fb.cell row col = s.fb.cell row col)) ∧
      ((∃ row col, UnderSprite s x y n row col ∧ s.fb.cell row col = true) → t.getV 0xF#4 = 1) ∧
      ((¬ ∃ row col, UnderSprite s x y n row col ∧ s.fb.cell row col = true) → t.getV 0xF#4 = 0) ∧
      (∀ r, r ≠ 0xF#4 → t.getV r = s.getV r) ∧ t.i = s.i ∧ SameStack s t ∧ SameMem s t)) ∧
    (n ≠ 0 → 4096 ≤ s.i.toNat + n.toNat - 1 → ∃ t, exec (.draw x y n) s = .next t ∧
      FaultTaken .outOfBounds (encode (.draw x y n)) (max s.i.toNat 4096) s t)

/-- R118: DRAW with `n = 0` is recognized, draws nothing, makes no check on `I`, clears `V[0xF]` and advances by 2. -/
def Obligations.DrawZeroRows : Prop :=
  ∀ (x y : Reg) (s : State), HasWord (.draw x y 0) (0xD000 + 256 * x.toNat + 16 * y.toNat) ∧
    RunsTo (.draw x y 0) s (s.pc.toNat + 2) (fun t =>
      (∀ r, t.getV r = if r = 0xF#4 then 0 else s.getV r) ∧ SameOutsideV s t)

/-- Drawing the same sprite at the same place twice restores every cell; the second DRAW collides exactly when the sprite
covers a cell that was off before the first (R114, R116; the source's worked example L1.9). The second DRAW runs with
the `PC` and `V` of the first, so `x` or `y` equal to `0xF` is covered too. -/
def Obligations.DrawTwiceRestores : Prop :=
  ∀ (x y : Reg) (n : BitVec 4) (s : State), n = 0 ∨ s.i.toNat + n.toNat - 1 < 4096 → s.pc.toNat + 2 < 4096 →
    ∃ t u, exec (.draw x y n) s = .next t ∧ exec (.draw x y n) { t with pc := s.pc, v := s.v } = .next u ∧
      SameFb s u ∧ u.runState = .running ∧
      (u.getV 0xF#4 = 1 ↔ ∃ row col, UnderSprite s x y n row col ∧ s.fb.cell row col = false)

/-! ### Which instruction touches what -/

/-- No instruction writes a general register that the table of R21 does not list for it. -/
def Obligations.RegistersWrittenAsListed : Prop :=
  ∀ (i : Instr) (s t : State) (r : Reg), exec i s = .next t → writesReg i r = false → t.getV r = s.getV r

/-- No instruction writes memory but STORE_BCD and STORE_REGS, and those only from `I` on for their width (R51). -/
def Obligations.MemoryWrittenAsListed : Prop :=
  ∀ (i : Instr) (s t : State) (a : Nat), s.mem.wf = true → exec i s = .next t →
    a < dataBase s ∨ dataBase s + storeWidth i ≤ a → t.mem.read a = s.mem.read a

/-- Only LOAD_I and ADD_I write `I`, only CALL and RETURN the call stack, only CLEAR and DRAW the framebuffer, and none
the timers (R30, R34, R41, R37). -/
def Obligations.SpecialStateWriters : Prop :=
  ∀ (i : Instr) (s t : State), exec i s = .next t →
    ((∀ nnn, i ≠ .loadI nnn) → (∀ x, i ≠ .addI x) → t.i = s.i) ∧
    ((∀ nnn, i ≠ .call nnn) → i ≠ .ret → t.sp = s.sp ∧ t.stack = s.stack) ∧
    (i ≠ .clear → (∀ x y n, i ≠ .draw x y n) → t.fb = s.fb) ∧
    t.dt = s.dt ∧ t.st = s.st

/-- No instruction reads or writes a timer: two runs that differ only in the timers stay so (R132, R136). -/
def Obligations.TimersDoNotInfluenceSteps : Prop :=
  ∀ (s t : State) (d e : Byte), step s = .next t →
    t.dt = s.dt ∧ t.st = s.st ∧ step { s with dt := d, st := e } = .next { t with dt := d, st := e }

/-! ### Host ports -/

/-- R62, R63: `load` copies the image from `0x200` and touches no other byte, or refuses an image that does not fit and
changes nothing; it is a move only in Idle and once per reset. -/
def Obligations.LoadContract : Prop :=
  ∀ (h : Session) (bytes : List Byte), h.core.mem.wf = true →
    (h.core.runState = .idle → h.loaded = false →
      (0x200 + bytes.length ≤ 4096 → ∃ h', sessionMove h (.load bytes) = some (h', .loadOk) ∧
        (∀ k, k < bytes.length → h'.core.mem.read (0x200 + k) = bytes.getD k 0) ∧
        (∀ a, a < 0x200 ∨ 0x200 + bytes.length ≤ a → h'.core.mem.read a = h.core.mem.read a) ∧
        h'.core = { h.core with mem := h'.core.mem } ∧ h'.loaded = true) ∧
      (4096 < 0x200 + bytes.length → ∃ h', sessionMove h (.load bytes) = some (h', .loadError) ∧ h'.core = h.core)) ∧
    (h.core.runState ≠ .idle ∨ h.loaded = true → sessionMove h (.load bytes) = none)

/-- After a LoadError there is no tick and no further load until reset, and reset makes both possible again (R123, R144). -/
def Obligations.NoTickAfterLoadError : Prop :=
  ∀ (h h' : Session) (bytes : List Byte), sessionMove h (.load bytes) = some (h', .loadError) →
    sessionMove h' .tick = none ∧ (∀ more, sessionMove h' (.load more) = none) ∧
    ∀ vReset, ∃ h'', sessionMove h' (.reset vReset) = some (h'', .none) ∧ (∃ h''' r, sessionMove h'' .tick = some (h''', r)) ∧
      ∃ h''' r, sessionMove h'' (.load []) = some (h''', r)

/-- R133 to R135: the timer ports read, set and count down the timers in every `RUN_STATE`, stopping at 0, and change
nothing else. -/
def Obligations.TimerPorts : Prop :=
  ∀ (h : Session) (b : Byte),
    sessionMove h (.timerRead .dt) = some (h, .timer h.core.dt) ∧
    sessionMove h (.timerRead .st) = some (h, .timer h.core.st) ∧
    sessionMove h (.timerWrite .dt b) = some ({ h with core := { h.core with dt := b } }, .none) ∧
    sessionMove h (.timerWrite .st b) = some ({ h with core := { h.core with st := b } }, .none) ∧
    ∃ d e : Byte, sessionMove h .timerDecrement = some ({ h with core := { h.core with dt := d, st := e } }, .none) ∧
      d.toNat = h.core.dt.toNat - 1 ∧ e.toNat = h.core.st.toNat - 1

/-- R115: `fb_snapshot` returns all cells, in every `RUN_STATE`, and changes no state. -/
def Obligations.SnapshotReturnsAllCells : Prop :=
  ∀ h : Session, ∃ fb : Framebuffer, sessionMove h .fbSnapshot = some (h, .framebuffer fb) ∧
    ∀ row col, fb.cell row col = h.core.fb.cell row col

/-- No move of the host but `reset` and `tick` changes `V`, `I`, `PC`, `SP`, `STACK`, `FB` or the executor status (R44,
R151). -/
def Obligations.HostLeavesProgramState : Prop :=
  ∀ (h h' : Session) (m : HostMove) (r : HostReply), sessionMove h m = some (h', r) →
    (∀ vReset, m ≠ .reset vReset) → m ≠ .tick →
    h'.core.v = h.core.v ∧ h'.core.i = h.core.i ∧ h'.core.pc = h.core.pc ∧ h'.core.sp = h.core.sp ∧
    h'.core.stack = h.core.stack ∧ h'.core.fb = h.core.fb ∧ h'.core.runState = h.core.runState ∧
    SameRecord h.core h'.core

/-- Only `reset` leaves Halted, and until then the fault record stays as it is (R32, R128). -/
def Obligations.OnlyResetLeavesHalted : Prop :=
  ∀ (h h' : Session) (m : HostMove) (r : HostReply), h.core.runState = .halted → sessionMove h m = some (h', r) →
    (∀ vReset, m ≠ .reset vReset) → h'.core.runState = .halted ∧ SameRecord h.core h'.core

/-- The status port shows the codes of R31 and R121, and `RUN_STATE` is never 3 nor `FAULT_CODE` above 3. -/
def Obligations.StatusCodes : Prop :=
  ∀ s : State,
    (s.runState = .idle ↔ (status s).runState = 0) ∧ (s.runState = .running ↔ (status s).runState = 1) ∧
    (s.runState = .halted ↔ (status s).runState = 2) ∧ (status s).runState ≠ 3 ∧
    (s.faultCode = .none ↔ (status s).faultCode = 0) ∧ (s.faultCode = .outOfBounds ↔ (status s).faultCode = 1) ∧
    (s.faultCode = .stackOverflow ↔ (status s).faultCode = 2) ∧
    (s.faultCode = .stackUnderflow ↔ (status s).faultCode = 3) ∧ (status s).faultCode.toNat ≤ 3
end

