-- ==== Sys2Proof/Laws/Cells.lean ====
section
/-!
SUPPORT. The laws of sparse cells, and through them of memory and of the call stack: a read after a write, and the
canonical form is kept by every write.
-/

namespace Sys2Proof.Machine

variable {w : Nat}

@[simp] theorem cellsRead_nil (a : Nat) : cellsRead ([] : List (Nat × BitVec w)) a = 0#w := rfl

/-- Keys below the lowest allowed key are unlisted. -/
theorem cellsRead_lt {lo bound : Nat} {l : List (Nat × BitVec w)} (h : cellsWfFrom lo bound l = true) {a : Nat}
    (ha : a < lo) : cellsRead l a = 0#w := by
  induction l generalizing lo with
  | nil => rfl
  | cons p rest ih =>
    obtain ⟨k, v⟩ := p
    simp only [cellsWfFrom, Bool.and_eq_true, decide_eq_true_eq] at h
    have : k ≠ a := by omega
    simp only [cellsRead, if_neg this]
    exact ih h.2 (by omega)

/-- Keys at or above the bound are unlisted. -/
theorem cellsRead_ge {lo bound : Nat} {l : List (Nat × BitVec w)} (h : cellsWfFrom lo bound l = true) {a : Nat}
    (ha : bound ≤ a) : cellsRead l a = 0#w := by
  induction l generalizing lo with
  | nil => rfl
  | cons p rest ih =>
    obtain ⟨k, v⟩ := p
    simp only [cellsWfFrom, Bool.and_eq_true, decide_eq_true_eq] at h
    have : k ≠ a := by omega
    simp only [cellsRead, if_neg this]
    exact ih h.2

/-- A read after a write: the value written at its key, every other key as before. Writing 0 to a canonical list
removes the key, so the canonical form is needed. -/
theorem cellsRead_write {lo bound : Nat} {l : List (Nat × BitVec w)} (h : cellsWfFrom lo bound l = true) (a : Nat)
    (v : BitVec w) (b : Nat) : cellsRead (cellsWrite l a v) b = if b = a then v else cellsRead l b := by
  induction l generalizing lo with
  | nil =>
    by_cases hv : v = 0#w
    · simp [cellsWrite, hv]
    · simp [cellsWrite, hv, cellsRead, eq_comm]
  | cons p rest ih =>
    obtain ⟨k, u⟩ := p
    simp only [cellsWfFrom, Bool.and_eq_true, decide_eq_true_eq] at h
    obtain ⟨⟨⟨hlo, hb⟩, hu⟩, hrest⟩ := h
    have below : ∀ c, c ≤ k → cellsRead rest c = 0#w := fun c hc => cellsRead_lt hrest (by omega)
    unfold cellsWrite
    split
    · rename_i hak
      by_cases hv : v = 0#w
      · subst hv
        by_cases hba : b = a
        · subst hba
          have : k ≠ b := by omega
          simp [cellsRead, this, below b (by omega)]
        · simp [hba]
      · simp only [if_neg hv]
        rw [show cellsRead ((a, v) :: (k, u) :: rest) b = if a = b then v else cellsRead ((k, u) :: rest) b from rfl]
        simp [eq_comm]
    · split
      · rename_i hnk hak
        subst hak
        by_cases hv : v = 0#w
        · subst hv
          by_cases hba : b = a
          · subst hba; simp [below b (Nat.le_refl _)]
          · have : a ≠ b := fun e => hba e.symm
            simp [hba, cellsRead, this]
        · by_cases hba : b = a
          · subst hba; simp [hv, cellsRead]
          · have : a ≠ b := fun e => hba e.symm
            simp [hv, hba, cellsRead, this]
      · rename_i hnk hak
        simp only [cellsRead]
        by_cases hkb : k = b
        · have : b ≠ a := by omega
          simp [hkb, this]
        · simp only [if_neg hkb]
          exact ih hrest

/-- A write keeps the canonical form. -/
theorem cellsWrite_wf {lo bound : Nat} {l : List (Nat × BitVec w)} (h : cellsWfFrom lo bound l = true) {a : Nat}
    (v : BitVec w) (hlo : lo ≤ a) (hb : a < bound) : cellsWfFrom lo bound (cellsWrite l a v) = true := by
  induction l generalizing lo with
  | nil =>
    by_cases hv : v = 0#w
    · simp [cellsWrite, hv, cellsWfFrom]
    · simp [cellsWrite, hv, cellsWfFrom, hlo, hb]
  | cons p rest ih =>
    obtain ⟨k, u⟩ := p
    have h0 := h
    simp only [cellsWfFrom, Bool.and_eq_true, decide_eq_true_eq] at h
    obtain ⟨⟨⟨hk, hkb⟩, hu⟩, hrest⟩ := h
    have raise : ∀ {c : Nat}, c ≤ k + 1 → cellsWfFrom c bound rest = true := by
      intro c hc
      cases rest with
      | nil => rfl
      | cons q rest' =>
        obtain ⟨k', u'⟩ := q
        simp only [cellsWfFrom, Bool.and_eq_true, decide_eq_true_eq] at hrest ⊢
        exact ⟨⟨⟨by omega, hrest.1.1.2⟩, hrest.1.2⟩, hrest.2⟩
    unfold cellsWrite
    split
    · rename_i hak
      by_cases hv : v = 0#w
      · simpa [hv] using h0
      · simp [hv, cellsWfFrom, hlo, hb, hkb, hu, hrest]; omega
    · split
      · rename_i hnk hak
        subst hak
        by_cases hv : v = 0#w
        · simpa [hv] using raise (by omega)
        · simp [hv, cellsWfFrom, hlo, hb, hrest]
      · rename_i hnk hak
        simp only [cellsWfFrom, Bool.and_eq_true, decide_eq_true_eq]
        exact ⟨⟨⟨hk, hkb⟩, hu⟩, ih hrest (by omega)⟩

/-- The canonical form is canonical: two lists in it that read the same are the same list. -/
theorem cells_ext {lo bound : Nat} {l m : List (Nat × BitVec w)} (hl : cellsWfFrom lo bound l = true)
    (hm : cellsWfFrom lo bound m = true) (h : ∀ a, cellsRead l a = cellsRead m a) : l = m := by
  induction l generalizing lo m with
  | nil =>
    cases m with
    | nil => rfl
    | cons q m' =>
      obtain ⟨k, v⟩ := q
      simp only [cellsWfFrom, Bool.and_eq_true, decide_eq_true_eq] at hm
      have := h k
      simp only [cellsRead, if_true] at this
      exact absurd this.symm hm.1.2
  | cons p l' ih =>
    obtain ⟨k, u⟩ := p
    have hl0 := hl
    simp only [cellsWfFrom, Bool.and_eq_true, decide_eq_true_eq] at hl
    cases m with
    | nil =>
      have := h k
      simp only [cellsRead, if_true] at this
      exact absurd this hl.1.2
    | cons q m' =>
      obtain ⟨j, v⟩ := q
      have hm0 := hm
      simp only [cellsWfFrom, Bool.and_eq_true, decide_eq_true_eq] at hm
      have hkj : k = j := by
        rcases Nat.lt_trichotomy k j with hlt | heq | hgt
        · have h1 := h k
          have h2 : cellsRead m' k = 0#w := cellsRead_lt hm.2 (by omega)
          have h3 : j ≠ k := by omega
          simp only [cellsRead, if_true, if_neg h3, h2] at h1
          exact absurd h1 hl.1.2
        · exact heq
        · have h1 := h j
          have h2 : cellsRead l' j = 0#w := cellsRead_lt hl.2 (by omega)
          have h3 : k ≠ j := by omega
          simp only [cellsRead, if_true, if_neg h3, h2] at h1
          exact absurd h1.symm hm.1.2
      subst hkj
      have huv : u = v := by simpa [cellsRead] using h k
      subst huv
      refine congrArg _ (ih hl.2 hm.2 fun a => ?_)
      have h1 := h a
      by_cases ha : k = a
      · subst ha
        rw [cellsRead_lt hl.2 (Nat.lt_succ_self _), cellsRead_lt hm.2 (Nat.lt_succ_self _)]
      · simpa [cellsRead, ha] using h1

/-! ### Memory -/

@[simp] theorem Memory.read_nil (a : Nat) : Memory.read [] a = 0x00#8 := rfl

theorem Memory.read_write {m : Memory} (h : m.wf = true) (a : Nat) (b : Byte) (c : Nat) :
    (m.write a b).read c = if c = a then b else m.read c :=
  cellsRead_write h a b c

theorem Memory.write_wf {m : Memory} (h : m.wf = true) {a : Nat} (b : Byte) (ha : a < 4096) : (m.write a b).wf = true :=
  cellsWrite_wf h b (Nat.zero_le _) ha

/-- Memories in canonical form that read the same are the same data. -/
theorem Memory.ext_read {m n : Memory} (hm : m.wf = true) (hn : n.wf = true) (h : ∀ a, m.read a = n.read a) : m = n :=
  cells_ext hm hn h

theorem Memory.nil_wf : Memory.wf [] = true := rfl

/-! ### Call stack -/

@[simp] theorem CallStack.read_nil (k : Nat) : CallStack.read [] k = 0x0000#16 := rfl

theorem CallStack.read_write {st : CallStack} (h : st.wf = true) (k : Nat) (a : Word) (j : Nat) :
    (st.write k a).read j = if j = k then a else st.read j :=
  cellsRead_write h k a j

theorem CallStack.write_wf {st : CallStack} (h : st.wf = true) {k : Nat} (a : Word) (hk : k < Config.stackCapacity) :
    (st.write k a).wf = true :=
  cellsWrite_wf h a (Nat.zero_le _) hk

end Sys2Proof.Machine
end

