-- ==== Sys2Proof/Laws/Decode.lean ====
section
/-!
SUPPORT. The value of every field and of every format as arithmetic on the word (30_encoding.md R71, R72), and how
fields and formats undo each other. Proofs about decode and encode cite these and close with omega.
-/

namespace Sys2Proof

/-! ### Values -/

theorem append_toNat {n m : Nat} (a : BitVec n) (b : BitVec m) : (a ++ b).toNat = a.toNat * 2 ^ m + b.toNat := by
  rw [BitVec.toNat_append, ← Nat.shiftLeft_add_eq_or_of_lt b.isLt, Nat.shiftLeft_eq]

theorem opField_toNat (w : Opcode) : (opField w).toNat = w.toNat / 4096 := by
  have := w.isLt
  simp [opField, BitVec.extractLsb'_toNat, Nat.shiftRight_eq_div_pow]
  omega

theorem xField_toNat (w : Opcode) : (xField w).toNat = w.toNat / 256 % 16 := by
  simp [xField, BitVec.extractLsb'_toNat, Nat.shiftRight_eq_div_pow]

theorem yField_toNat (w : Opcode) : (yField w).toNat = w.toNat / 16 % 16 := by
  simp [yField, BitVec.extractLsb'_toNat, Nat.shiftRight_eq_div_pow]

theorem nField_toNat (w : Opcode) : (nField w).toNat = w.toNat % 16 := by
  simp [nField, BitVec.extractLsb'_toNat]

theorem kkField_toNat (w : Opcode) : (kkField w).toNat = w.toNat % 256 := by
  simp [kkField, BitVec.extractLsb'_toNat]

theorem nnnField_toNat (w : Opcode) : (nnnField w).toNat = w.toNat % 4096 := by
  simp [nnnField, BitVec.extractLsb'_toNat]

theorem opcodeOfBytes_toNat (hi lo : Byte) : (opcodeOfBytes hi lo).toNat = hi.toNat * 256 + lo.toNat :=
  append_toNat hi lo

theorem formatNNN_toNat (op : BitVec 4) (nnn : BitVec 12) :
    (formatNNN op nnn).toNat = op.toNat * 4096 + nnn.toNat :=
  append_toNat op nnn

theorem formatXKK_toNat (op x : BitVec 4) (kk : Byte) :
    (formatXKK op x kk).toNat = op.toNat * 4096 + x.toNat * 256 + kk.toNat :=
  (append_toNat (op ++ x) kk).trans (by rw [append_toNat op x]; omega)

theorem formatXYN_toNat (op x y n : BitVec 4) :
    (formatXYN op x y n).toNat = op.toNat * 4096 + x.toNat * 256 + y.toNat * 16 + n.toNat :=
  (append_toNat (op ++ x ++ y) n).trans (by rw [append_toNat (op ++ x) y, append_toNat op x]; omega)

theorem encode_XYS_toNat (op x y n : BitVec 4) {k : Nat} (h : op.toNat * 4096 + n.toNat = k) :
    (formatXYN op x y n).toNat = k + 256 * x.toNat + 16 * y.toNat := by
  rw [formatXYN_toNat]
  subst h
  omega

theorem encode_XKK_toNat (op x : BitVec 4) (kk : Byte) {k : Nat} (h : op.toNat * 4096 = k) :
    (formatXKK op x kk).toNat = k + 256 * x.toNat + kk.toNat := by
  rw [formatXKK_toNat]
  subst h
  omega

theorem encode_XS_toNat (op x : BitVec 4) (kk : Byte) {k : Nat} (h : op.toNat * 4096 + kk.toNat = k) :
    (formatXKK op x kk).toNat = k + 256 * x.toNat := by
  rw [formatXKK_toNat]
  subst h
  omega

/-! ### Fields of a format -/

@[simp] theorem opField_formatNNN (op : BitVec 4) (nnn : BitVec 12) : opField (formatNNN op nnn) = op := by
  apply BitVec.eq_of_toNat_eq
  rw [opField_toNat, formatNNN_toNat]
  have := nnn.isLt
  omega

@[simp] theorem nnnField_formatNNN (op : BitVec 4) (nnn : BitVec 12) : nnnField (formatNNN op nnn) = nnn := by
  apply BitVec.eq_of_toNat_eq
  rw [nnnField_toNat, formatNNN_toNat]
  have := nnn.isLt
  omega

@[simp] theorem opField_formatXKK (op x : BitVec 4) (kk : Byte) : opField (formatXKK op x kk) = op := by
  apply BitVec.eq_of_toNat_eq
  rw [opField_toNat, formatXKK_toNat]
  have := x.isLt
  have := kk.isLt
  omega

@[simp] theorem xField_formatXKK (op x : BitVec 4) (kk : Byte) : xField (formatXKK op x kk) = x := by
  apply BitVec.eq_of_toNat_eq
  rw [xField_toNat, formatXKK_toNat]
  have := x.isLt
  have := kk.isLt
  omega

@[simp] theorem kkField_formatXKK (op x : BitVec 4) (kk : Byte) : kkField (formatXKK op x kk) = kk := by
  apply BitVec.eq_of_toNat_eq
  rw [kkField_toNat, formatXKK_toNat]
  have := kk.isLt
  omega

@[simp] theorem opField_formatXYN (op x y n : BitVec 4) : opField (formatXYN op x y n) = op := by
  apply BitVec.eq_of_toNat_eq
  rw [opField_toNat, formatXYN_toNat]
  have := x.isLt
  have := y.isLt
  have := n.isLt
  omega

@[simp] theorem xField_formatXYN (op x y n : BitVec 4) : xField (formatXYN op x y n) = x := by
  apply BitVec.eq_of_toNat_eq
  rw [xField_toNat, formatXYN_toNat]
  have := x.isLt
  have := y.isLt
  have := n.isLt
  omega

@[simp] theorem yField_formatXYN (op x y n : BitVec 4) : yField (formatXYN op x y n) = y := by
  apply BitVec.eq_of_toNat_eq
  rw [yField_toNat, formatXYN_toNat]
  have := y.isLt
  have := n.isLt
  omega

@[simp] theorem nField_formatXYN (op x y n : BitVec 4) : nField (formatXYN op x y n) = n := by
  apply BitVec.eq_of_toNat_eq
  rw [nField_toNat, formatXYN_toNat]
  have := n.isLt
  omega

/-! ### A word from its own fields -/

theorem formatNNN_fields (w : Opcode) {op : BitVec 4} (h : (opField w).toNat = op.toNat) :
    formatNNN op (nnnField w) = w := by
  apply BitVec.eq_of_toNat_eq
  rw [formatNNN_toNat, nnnField_toNat]
  rw [opField_toNat] at h
  omega

theorem formatXKK_fields (w : Opcode) {op : BitVec 4} {kk : Byte} (h : (opField w).toNat = op.toNat)
    (hk : (kkField w).toNat = kk.toNat) : formatXKK op (xField w) kk = w := by
  apply BitVec.eq_of_toNat_eq
  rw [formatXKK_toNat, xField_toNat]
  rw [opField_toNat] at h
  rw [kkField_toNat] at hk
  omega

theorem formatXYN_fields (w : Opcode) {op n : BitVec 4} (h : (opField w).toNat = op.toNat)
    (hn : (nField w).toNat = n.toNat) : formatXYN op (xField w) (yField w) n = w := by
  apply BitVec.eq_of_toNat_eq
  rw [formatXYN_toNat, xField_toNat, yField_toNat]
  rw [opField_toNat] at h
  rw [nField_toNat] at hn
  omega

/-- The two bytes of a word form the word again (R70). -/
theorem opcodeOfBytes_bytes (w : Opcode) : opcodeOfBytes (w.extractLsb' 8 8) (w.extractLsb' 0 8) = w := by
  apply BitVec.eq_of_toNat_eq
  rw [opcodeOfBytes_toNat]
  have := w.isLt
  simp [BitVec.extractLsb'_toNat, Nat.shiftRight_eq_div_pow]
  omega

end Sys2Proof
end

