-- ==== Sys2Proof/Laws/State.lean ====
section
/-!
SUPPORT. One lemma per field per update of State, so that no later proof unfolds a record update.
-/

namespace Sys2Proof.Machine

variable (s : State) (r : Reg) (b g : Byte)

/-! ### `setV` touches `V` only -/

@[simp] theorem setV_v : (s.setV r b).v = s.v.set r.toNat b r.isLt := rfl
@[simp] theorem setV_pc : (s.setV r b).pc = s.pc := rfl
@[simp] theorem setV_i : (s.setV r b).i = s.i := rfl
@[simp] theorem setV_sp : (s.setV r b).sp = s.sp := rfl
@[simp] theorem setV_stack : (s.setV r b).stack = s.stack := rfl
@[simp] theorem setV_dt : (s.setV r b).dt = s.dt := rfl
@[simp] theorem setV_st : (s.setV r b).st = s.st := rfl
@[simp] theorem setV_mem : (s.setV r b).mem = s.mem := rfl
@[simp] theorem setV_fb : (s.setV r b).fb = s.fb := rfl
@[simp] theorem setV_runState : (s.setV r b).runState = s.runState := rfl
@[simp] theorem setV_faultCode : (s.setV r b).faultCode = s.faultCode := rfl
@[simp] theorem setV_faultPc : (s.setV r b).faultPc = s.faultPc := rfl
@[simp] theorem setV_faultOpcode : (s.setV r b).faultOpcode = s.faultOpcode := rfl
@[simp] theorem setV_faultAddr : (s.setV r b).faultAddr = s.faultAddr := rfl

/-! ### `setFlagThenV` touches `V` only -/

@[simp] theorem setFlagThenV_pc : (s.setFlagThenV g r b).pc = s.pc := rfl
@[simp] theorem setFlagThenV_i : (s.setFlagThenV g r b).i = s.i := rfl
@[simp] theorem setFlagThenV_sp : (s.setFlagThenV g r b).sp = s.sp := rfl
@[simp] theorem setFlagThenV_stack : (s.setFlagThenV g r b).stack = s.stack := rfl
@[simp] theorem setFlagThenV_dt : (s.setFlagThenV g r b).dt = s.dt := rfl
@[simp] theorem setFlagThenV_st : (s.setFlagThenV g r b).st = s.st := rfl
@[simp] theorem setFlagThenV_mem : (s.setFlagThenV g r b).mem = s.mem := rfl
@[simp] theorem setFlagThenV_fb : (s.setFlagThenV g r b).fb = s.fb := rfl
@[simp] theorem setFlagThenV_runState : (s.setFlagThenV g r b).runState = s.runState := rfl
@[simp] theorem setFlagThenV_faultCode : (s.setFlagThenV g r b).faultCode = s.faultCode := rfl
@[simp] theorem setFlagThenV_faultPc : (s.setFlagThenV g r b).faultPc = s.faultPc := rfl
@[simp] theorem setFlagThenV_faultOpcode : (s.setFlagThenV g r b).faultOpcode = s.faultOpcode := rfl
@[simp] theorem setFlagThenV_faultAddr : (s.setFlagThenV g r b).faultAddr = s.faultAddr := rfl

/-! ### `faultEntry` touches the executor status only -/

variable (f : Fault) (w : Opcode)

@[simp] theorem faultEntry_v : (faultEntry f w s).v = s.v := rfl
@[simp] theorem faultEntry_pc : (faultEntry f w s).pc = s.pc := rfl
@[simp] theorem faultEntry_i : (faultEntry f w s).i = s.i := rfl
@[simp] theorem faultEntry_sp : (faultEntry f w s).sp = s.sp := rfl
@[simp] theorem faultEntry_stack : (faultEntry f w s).stack = s.stack := rfl
@[simp] theorem faultEntry_dt : (faultEntry f w s).dt = s.dt := rfl
@[simp] theorem faultEntry_st : (faultEntry f w s).st = s.st := rfl
@[simp] theorem faultEntry_mem : (faultEntry f w s).mem = s.mem := rfl
@[simp] theorem faultEntry_fb : (faultEntry f w s).fb = s.fb := rfl
@[simp] theorem faultEntry_runState : (faultEntry f w s).runState = .halted := rfl
@[simp] theorem faultEntry_faultCode : (faultEntry f w s).faultCode = faultCodeOf f := rfl
@[simp] theorem faultEntry_faultPc : (faultEntry f w s).faultPc = s.pc := rfl
@[simp] theorem faultEntry_faultOpcode : (faultEntry f w s).faultOpcode = w := rfl
@[simp] theorem faultEntry_faultAddr : (faultEntry f w s).faultAddr = faultAddrOf f := rfl

/-! ### `getV` sees `V` only -/

theorem getV_congr {s t : State} (h : t.v = s.v) (r : Reg) : t.getV r = s.getV r := by
  simp [State.getV, h]

@[simp] theorem getV_with_pc (a : Word) (x : RunState) : State.getV { s with pc := a, runState := x } r = s.getV r := rfl
@[simp] theorem getV_with_i (a : Word) : State.getV { s with i := a } r = s.getV r := rfl
@[simp] theorem getV_with_mem (m : Memory) : State.getV { s with mem := m } r = s.getV r := rfl
@[simp] theorem getV_with_fb (fb : Framebuffer) : State.getV { s with fb := fb } r = s.getV r := rfl
@[simp] theorem getV_faultEntry : (faultEntry f w s).getV r = s.getV r := rfl

/-- A register read after a register write. -/
theorem getV_setV (q : Reg) : (s.setV r b).getV q = if q = r then b else s.getV q := by
  by_cases h : q = r
  · subst h; simp [State.getV]
  · have h' : r.toNat ≠ q.toNat := fun e => h (BitVec.eq_of_toNat_eq e.symm)
    simp [State.getV, h, h']

@[simp] theorem getV_setV_same : (s.setV r b).getV r = b := by simp [getV_setV]

theorem getV_setV_ne {q : Reg} (h : q ≠ r) : (s.setV r b).getV q = s.getV q := by simp [getV_setV, h]

/-- The destination of a flag-writing instruction is written last (10_state.md R20). -/
theorem getV_setFlagThenV (q : Reg) :
    (s.setFlagThenV g r b).getV q = if q = r then b else if q = 0xF#4 then g else s.getV q := by
  simp [State.setFlagThenV, getV_setV]

end Sys2Proof.Machine
end

