-- ==== Sys2Proof/Laws/Ops.lean ====
section
/-!
SUPPORT. One lemma per shared operation that says everything it can do: the spans, push and pop, fetch, `NextPC`,
commit and retire. Provers cite these instead of unfolding the operations.
-/

namespace Sys2Proof.Machine

@[simp] theorem memSize_eq : Config.memSize = 4096 := rfl
@[simp] theorem progOrigin_eq : Config.progOrigin = 512 := rfl

/-! ### Except -/

@[simp] theorem bind_ok {ε α β : Type} (a : α) (f : α → Except ε β) : (Except.ok a : Except ε α).bind f = f a := rfl
@[simp] theorem bind_error {ε α β : Type} (e : ε) (f : α → Except ε β) : (Except.error e : Except ε α).bind f = .error e := rfl
@[simp] theorem map_ok {ε α β : Type} (a : α) (f : α → β) : (Except.ok a : Except ε α).map f = .ok (f a) := rfl
@[simp] theorem map_error {ε α β : Type} (e : ε) (f : α → β) : (Except.error e : Except ε α).map f = .error e := rfl

/-! ### `NextPC`, commit, retire -/

theorem nextPc_ok {target : Nat} (h : target < 4096) (s : State) :
    nextPc target s = .ok { s with pc := BitVec.ofNat 16 target } := by
  simp [nextPc]; omega

theorem nextPc_error {target : Nat} (h : 4096 ≤ target) (s : State) :
    nextPc target s = .error (.outOfBounds target) := by
  simp [nextPc, h]

@[simp] theorem commit_ok (w : Opcode) (s t : State) : commit w s (.ok t) = .next { t with runState := .running } := rfl
@[simp] theorem commit_error (w : Opcode) (s : State) (f : Fault) : commit w s (.error f) = .next (faultEntry f w s) := rfl

/-- A retired instruction whose effect and next `PC` raise nothing commits both. -/
theorem retire_ok (i : Instr) (s t : State) {target : Nat} (h : target < 4096) :
    retire i s target (.ok t) = .next { t with pc := BitVec.ofNat 16 target, runState := .running } := by
  simp [retire, nextPc_ok h]

/-- A next `PC` out of range is taken as a fault, whatever the effect would have written. -/
theorem retire_target (i : Instr) (s t : State) {target : Nat} (h : 4096 ≤ target) :
    retire i s target (.ok t) = .next (faultEntry (.outOfBounds target) (encode i) s) := by
  simp [retire, nextPc_error h]

/-- A fault of the effect itself comes before the next `PC` (60_exceptions.md R124). -/
@[simp] theorem retire_error (i : Instr) (s : State) (target : Nat) (f : Fault) :
    retire i s target (.error f) = .next (faultEntry f (encode i) s) := rfl

/-- Everything a retired instruction can do: take its effect's fault, take the fault of the next `PC`, or commit. -/
theorem retire_cases (i : Instr) (s : State) (target : Nat) (e : Except Fault State) :
    (∃ f, e = .error f ∧ retire i s target e = .next (faultEntry f (encode i) s)) ∨
    (∃ t, e = .ok t ∧ 4096 ≤ target ∧ retire i s target e = .next (faultEntry (.outOfBounds target) (encode i) s)) ∨
    (∃ t, e = .ok t ∧ target < 4096 ∧
      retire i s target e = .next { t with pc := BitVec.ofNat 16 target, runState := .running }) := by
  cases e with
  | error f => exact .inl ⟨f, rfl, rfl⟩
  | ok t =>
    by_cases h : target < 4096
    · exact .inr (.inr ⟨t, rfl, h, retire_ok i s t h⟩)
    · exact .inr (.inl ⟨t, rfl, by omega, retire_target i s t (by omega)⟩)

theorem ofNat_toNat_of_lt {n : Nat} (h : n < 4096) : (BitVec.ofNat 16 n).toNat = n := by
  simp; omega

/-! ### Spans -/

theorem memRead_ok {m : Memory} {a : Nat} (h : a < 4096) : memRead m a = .ok (m.read a) := by
  simp [memRead]; omega

theorem memWrite_ok {m : Memory} {a : Nat} (b : Byte) (h : a < 4096) : memWrite m a b = .ok (m.write a b) := by
  simp [memWrite]; omega

theorem readBytesFrom_ok (m : Memory) (n base : Nat) (h : base + n ≤ 4096) :
    readBytesFrom m base n = .ok ((List.range n).map fun k => m.read (base + k)) := by
  induction n generalizing base with
  | zero => rfl
  | succ n ih =>
    simp only [readBytesFrom, memRead_ok (show base < 4096 by omega), bind_ok, ih (base + 1) (by omega), map_ok]
    rw [List.range_succ_eq_map]
    simp [Function.comp_def, show ∀ a, base + 1 + a = base + (a + 1) from fun a => by omega]

/-- The bytes stored one after the other from `base` on. -/
def storeBytes (m : Memory) : Nat → List Byte → Memory
  | _, [] => m
  | a, b :: bs => storeBytes (m.write a b) (a + 1) bs

theorem writeBytesFrom_ok (bs : List Byte) (m : Memory) (base : Nat) (h : base + bs.length ≤ 4096) :
    writeBytesFrom m base bs = .ok (storeBytes m base bs) := by
  induction bs generalizing m base with
  | nil => rfl
  | cons b bs ih =>
    simp only [List.length_cons] at h
    simp only [writeBytesFrom, memWrite_ok b (show base < 4096 by omega), bind_ok, storeBytes]
    exact ih _ _ (by omega)

theorem storeBytes_wf (bs : List Byte) {m : Memory} (hm : m.wf = true) (base : Nat) (h : base + bs.length ≤ 4096) :
    (storeBytes m base bs).wf = true := by
  induction bs generalizing m base with
  | nil => exact hm
  | cons b bs ih =>
    simp only [List.length_cons] at h
    exact ih (Memory.write_wf hm b (by omega)) _ (by omega)

/-- What every byte reads as after a run of bytes is stored. -/
theorem storeBytes_read (bs : List Byte) {m : Memory} (hm : m.wf = true) (base : Nat) (h : base + bs.length ≤ 4096)
    (a : Nat) : (storeBytes m base bs).read a =
      if base ≤ a ∧ a < base + bs.length then bs.getD (a - base) 0x00#8 else m.read a := by
  induction bs generalizing m base with
  | nil => rw [if_neg (by simp)]; rfl
  | cons b bs ih =>
    simp only [List.length_cons] at h
    simp only [storeBytes, ih (Memory.write_wf hm b (show base < 4096 by omega)) (base + 1) (by omega),
      Memory.read_write hm, List.length_cons]
    by_cases h1 : a = base
    · subst h1; simp
    · by_cases h2 : base + 1 ≤ a ∧ a < base + 1 + bs.length
      · have h3 : a - base = a - (base + 1) + 1 := by omega
        have h4 : base ≤ a ∧ a < base + (bs.length + 1) := by omega
        rw [if_pos h2, if_pos h4, h3]
        simp
      · have h4 : ¬ (base ≤ a ∧ a < base + (bs.length + 1)) := by omega
        rw [if_neg h2, if_neg h4, if_neg h1]

theorem spanCheck_ok {base n : Nat} (h : n = 0 ∨ base + n ≤ 4096) : spanCheck base n = .ok () := by
  simp only [spanCheck]
  rw [if_neg]
  rintro ⟨h1, h2⟩
  have : Config.memSize = 4096 := rfl
  omega

theorem spanCheck_error {base n : Nat} (h0 : 0 < n) (h : 4096 < base + n) :
    spanCheck base n = .error (.outOfBounds (max base 4096)) := by
  simp only [spanCheck]
  rw [if_pos]
  have : Config.memSize = 4096 := rfl
  omega

/-- A data read within memory: the bytes, lowest address first. -/
theorem readSpan_ok (m : Memory) {base n : Nat} (h : base + n ≤ 4096) :
    readSpan m base n = .ok ((List.range n).map fun k => m.read (base + k)) := by
  simp [readSpan, spanCheck_ok (.inr h), readBytesFrom_ok m n base h]

/-- No byte is read and no address checked for an empty span (43_display.md R118). -/
theorem readSpan_zero (m : Memory) (base : Nat) : readSpan m base 0 = .ok [] := by
  simp [readSpan, spanCheck_ok (.inl rfl), readBytesFrom]

/-- A data read that leaves memory: the first address out of range, nothing read (20_memory.md R61). -/
theorem readSpan_error (m : Memory) {base n : Nat} (h0 : 0 < n) (h : 4096 < base + n) :
    readSpan m base n = .error (.outOfBounds (max base 4096)) := by
  simp [readSpan, spanCheck_error h0 h]

theorem writeSpan_ok (m : Memory) {base : Nat} {bs : List Byte} (h : base + bs.length ≤ 4096) :
    writeSpan m base bs = .ok (storeBytes m base bs) := by
  simp [writeSpan, spanCheck_ok (.inr h), writeBytesFrom_ok bs m base h]

theorem writeSpan_error (m : Memory) {base : Nat} {bs : List Byte} (h0 : 0 < bs.length) (h : 4096 < base + bs.length) :
    writeSpan m base bs = .error (.outOfBounds (max base 4096)) := by
  simp [writeSpan, spanCheck_error h0 h]

/-- Every data write keeps memory's canonical form. -/
theorem writeSpan_wf {m m' : Memory} (hm : m.wf = true) {base : Nat} {bs : List Byte}
    (h : writeSpan m base bs = .ok m') : m'.wf = true := by
  by_cases h1 : bs.length = 0
  · have h2 : bs = [] := List.length_eq_zero_iff.mp h1
    subst h2
    simp only [writeSpan, spanCheck_ok (.inl rfl : ([] : List Byte).length = 0 ∨ _), bind_ok, writeBytesFrom,
      Except.ok.injEq] at h
    exact h ▸ hm
  · by_cases h2 : base + bs.length ≤ 4096
    · rw [writeSpan_ok m h2, Except.ok.injEq] at h
      exact h ▸ storeBytes_wf bs hm base h2
    · rw [writeSpan_error m (by omega) (by omega)] at h
      cases h

/-- The placing of a word for `State.withFetchWord` keeps memory's canonical form. -/
theorem placeWord_wf {m : Memory} (hm : m.wf = true) (a : Nat) (w : Opcode) : (placeWord m a w).wf = true := by
  unfold placeWord
  split
  · rename_i h; exact writeSpan_wf hm h
  · exact hm

/-! ### Fetch -/

theorem fetchWord_ok (m : Memory) {a : Nat} (h : a + 1 < 4096) :
    fetchWord m a = .ok (opcodeOfBytes (m.read a) (m.read (a + 1))) := by
  simp [fetchWord]; omega

theorem fetchWord_error (m : Memory) {a : Nat} (h : 4096 ≤ a + 1) : fetchWord m a = .error (.outOfBounds (a + 1)) := by
  simp [fetchWord, h]

/-! ### Push and pop -/

theorem push_ok (s : State) (a : Word) (h : s.sp < Config.stackCapacity) :
    push s a = .ok { s with stack := s.stack.write s.sp a, sp := s.sp + 1 } := by
  simp [push, h]

theorem push_error (s : State) (a : Word) (h : ¬ s.sp < Config.stackCapacity) : push s a = .error .stackOverflow := by
  simp [push, h]

theorem pop_ok (s : State) (h : s.sp ≠ 0) : pop s = .ok (s.stack.read (s.sp - 1), { s with sp := s.sp - 1 }) := by
  simp [pop, h]

theorem pop_error (s : State) (h : s.sp = 0) : pop s = .error .stackUnderflow := by
  simp [pop, h]

/-! ### Consecutive registers -/

/-- What each register holds after consecutive registers are written. -/
theorem writeRegsFrom_getElem (bs : List Byte) (v : Vector Byte 16) (k j : Nat) (hj : j < 16) :
    (writeRegsFrom v k bs)[j] = if k ≤ j ∧ j < k + bs.length then bs.getD (j - k) 0x00#8 else v[j] := by
  induction bs generalizing v k with
  | nil => rw [if_neg (by simp)]; rfl
  | cons b bs ih =>
    simp only [writeRegsFrom, ih, List.length_cons]
    by_cases h1 : j = k
    · subst h1
      rw [if_neg (by omega), if_pos (by omega)]
      simp
    · by_cases h2 : k + 1 ≤ j ∧ j < k + 1 + bs.length
      · have h3 : j - k = j - (k + 1) + 1 := by omega
        rw [if_pos h2, if_pos (by omega), h3]
        simp
      · rw [if_neg h2, if_neg (by omega)]
        have : k ≠ j := fun e => h1 e.symm
        simp [this]

/-! ### Operands -/

@[simp] theorem instrAddress_eq (s : State) : instrAddress s = s.pc.toNat := rfl
@[simp] theorem followingAddress_eq (s : State) : followingAddress s = s.pc.toNat + 2 := rfl
@[simp] theorem targetAddress_eq (nnn : BitVec 12) : targetAddress nnn = nnn.toNat := rfl
@[simp] theorem dataBase_eq (s : State) : dataBase s = s.i.toNat := rfl
@[simp] theorem regCount_eq (x : Reg) : regCount x = x.toNat + 1 := rfl

@[simp] theorem bcdDigits_length (b : Byte) : (bcdDigits b).length = 3 := rfl

@[simp] theorem regsUpTo_length (s : State) (x : Reg) : (regsUpTo s x).length = x.toNat + 1 := by
  have := x.isLt
  simp [regsUpTo]
  omega

/-- The registers STORE_REGS writes (42_index_memory.md R110). -/
theorem regsUpTo_getD (s : State) {x k : Reg} (h : k.toNat ≤ x.toNat) : (regsUpTo s x).getD k.toNat 0 = s.getV k := by
  have h1 : k.toNat < (regsUpTo s x).length := by rw [regsUpTo_length]; omega
  rw [List.getD_eq_getElem _ _ h1]
  simp [regsUpTo, State.getV]

/-- The registers after LOAD_REGS (R111). -/
theorem getV_writeRegsFrom (s : State) (bs : List Byte) (r : Reg) :
    State.getV { s with v := writeRegsFrom s.v 0 bs } r = if r.toNat < bs.length then bs.getD r.toNat 0 else s.getV r := by
  have := writeRegsFrom_getElem bs s.v 0 r.toNat r.isLt
  simpa [State.getV] using this

end Sys2Proof.Machine
end

