-- ==== Sys2Proof/Laws/Display.lean ====
section
/-!
SUPPORT. The laws of the framebuffer primitives (43_display.md R114, R117).
-/

namespace Sys2Proof.Machine

/-- Two coordinates name the same cell when they agree after wrapping. -/
def sameCell (row col r c : Nat) : Bool := row % 32 == r % 32 && col % 64 == c % 64

/-- The XOR primitive toggles the wrapped cell and no other (R114). -/
theorem xorPixel_cell (fb : Framebuffer) (row col r c : Nat) :
    Framebuffer.cell (xorPixel fb row col).1 r c = (fb.cell r c ^^ sameCell row col r c) := by
  by_cases h1 : row % 32 = r % 32
  · by_cases h2 : col % 64 = c % 64
    · simp [xorPixel, Framebuffer.cell, sameCell, h1, h2]
    · have e2 : (col % 64 == c % 64) = false := beq_false_of_ne h2
      simp [xorPixel, Framebuffer.cell, sameCell, h1, h2, e2]
  · have e1 : (row % 32 == r % 32) = false := beq_false_of_ne h1
    simp [xorPixel, Framebuffer.cell, sameCell, h1, e1]

/-- The XOR primitive returns the cell's new value (R114). -/
theorem xorPixel_value (fb : Framebuffer) (row col : Nat) :
    (xorPixel fb row col).2 = Framebuffer.cell (xorPixel fb row col).1 row col := by
  rw [xorPixel_cell]
  simp [xorPixel, sameCell]

/-- A run of toggles flips each cell once per list entry that names it. -/
theorem xorPixels_cell (cells : List (Nat × Nat)) (fb : Framebuffer) (r c : Nat) :
    Framebuffer.cell (xorPixels fb cells) r c =
      (fb.cell r c ^^ (cells.countP fun p => sameCell p.1 p.2 r c) % 2 == 1) := by
  induction cells generalizing fb with
  | nil => simp [xorPixels]
  | cons p cells ih =>
    have hstep : xorPixels fb (p :: cells) = xorPixels (xorPixel fb p.1 p.2).1 cells := rfl
    rw [hstep, ih, xorPixel_cell, List.countP_cons, Bool.xor_assoc]
    congr 1
    generalize List.countP (fun p => sameCell p.1 p.2 r c) cells = k
    cases sameCell p.1 p.2 r c
    · simp
    · rcases Nat.mod_two_eq_zero_or_one k with h | h <;> simp [h, Nat.add_mod]

/-- A cleared cell is off (R113). -/
@[simp] theorem clearedFramebuffer_cell (row col : Nat) : clearedFramebuffer.cell row col = false := by
  simp [clearedFramebuffer, Framebuffer.cell]

/-- Framebuffers with the same cells are the same data. -/
theorem framebuffer_ext {f g : Framebuffer} (h : ∀ row col, f.cell row col = g.cell row col) : f = g := by
  apply Vector.ext
  intro r hr
  apply Vector.ext
  intro c hc
  have := h r c
  simpa [Framebuffer.cell, Nat.mod_eq_of_lt hr, Nat.mod_eq_of_lt hc] using this

/-! ### Sprite cells (R116) -/

/-- The cells of one sprite byte. -/
theorem mem_spriteRowCells (cx row : Nat) (b : Byte) (p : Nat × Nat) :
    p ∈ spriteRowCells cx row b ↔ ∃ c, c < 8 ∧ b.getLsbD (7 - c) = true ∧ p = (row % 32, (cx + c) % 64) := by
  simp only [spriteRowCells, List.mem_filterMap, List.mem_range]
  constructor
  · rintro ⟨c, hc, h⟩
    split at h
    · rename_i hb
      cases h
      exact ⟨c, hc, hb, rfl⟩
    · cases h
  · rintro ⟨c, hc, hb, rfl⟩
    exact ⟨c, hc, by rw [if_pos hb]⟩

/-- The cells of a sprite, byte by byte. -/
theorem mem_spriteCells (cx : Nat) (bs : List Byte) (cy : Nat) (p : Nat × Nat) :
    p ∈ spriteCells cx cy bs ↔ ∃ r c, r < bs.length ∧ c < 8 ∧ (bs.getD r 0).getLsbD (7 - c) = true ∧
      p = ((cy + r) % 32, (cx + c) % 64) := by
  induction bs generalizing cy with
  | nil => simp [spriteCells]
  | cons b bs ih =>
    simp only [spriteCells, List.mem_append, mem_spriteRowCells, ih]
    constructor
    · rintro (⟨c, hc, hb, rfl⟩ | ⟨r, c, hr, hc, hb, rfl⟩)
      · exact ⟨0, c, by simp, hc, by simpa using hb, rfl⟩
      · exact ⟨r + 1, c, by simpa using hr, hc, by simpa using hb, by rw [show cy + 1 + r = cy + (r + 1) by omega]⟩
    · rintro ⟨r, c, hr, hc, hb, rfl⟩
      cases r with
      | zero => exact .inl ⟨c, hc, by simpa using hb, rfl⟩
      | succ r =>
        exact .inr ⟨r, c, by simpa using hr, hc, by simpa using hb, by rw [show cy + 1 + r = cy + (r + 1) by omega]⟩

end Sys2Proof.Machine
end

