-- ==== Sys2Proof/Laws/PerInstr.lean ====
section
/-!
SUPPORT. The per-instruction family TableRow: the word of every instruction carries the fixed bits of that
instruction's row of spec/opcode_table.json (30_encoding.md R72, R74).
-/

namespace Sys2Proof.Laws.TableRow

/-- The fixed bits of the instruction's row stand in its word. -/
def Statement (i : Instr) : Prop := matchesRow (encode i) (tableRow i) = true

/-- Masking a concatenation masks its parts. -/
theorem append_and {n m : Nat} (a c : BitVec n) (b d : BitVec m) : (a ++ b) &&& (c ++ d) = (a &&& c) ++ (b &&& d) := by
  apply BitVec.eq_of_getLsbD_eq
  intro k _
  simp only [BitVec.getLsbD_and, BitVec.getLsbD_append]
  split <;> rfl

/-- Masking with all ones keeps a nibble. -/
theorem nibble_ones (a : BitVec 4) : a &&& 0xF#4 = a := BitVec.and_allOnes (x := a)

/-- The top nibble of format `NNN` is its `op`. -/
theorem mask_NNN (op : BitVec 4) (nnn : BitVec 12) : formatNNN op nnn &&& 0xF000#16 = op ++ 0x000#12 :=
  (append_and op 0xF#4 nnn 0x000#12).trans (by rw [nibble_ones, BitVec.and_zero])

/-- The top nibble of format `XKK` is its `op`. -/
theorem mask_XKK (op x : BitVec 4) (kk : Byte) : formatXKK op x kk &&& 0xF000#16 = op ++ 0x0#4 ++ 0x00#8 :=
  (append_and (op ++ x) (0xF#4 ++ 0x0#4) kk 0x00#8).trans
    (by rw [append_and, nibble_ones, BitVec.and_zero, BitVec.and_zero])

/-- The top nibble and the low byte of format `XS` are its fixed bits. -/
theorem mask_XS (op x : BitVec 4) (kk : Byte) : formatXKK op x kk &&& 0xF0FF#16 = op ++ 0x0#4 ++ kk :=
  (append_and (op ++ x) (0xF#4 ++ 0x0#4) kk 0xFF#8).trans
    (by rw [append_and, nibble_ones, BitVec.and_zero, show kk &&& 0xFF#8 = kk from BitVec.and_allOnes (x := kk)])

/-- The top nibble of format `XYN` is its `op`. -/
theorem mask_XYN (op x y n : BitVec 4) : formatXYN op x y n &&& 0xF000#16 = op ++ 0x0#4 ++ 0x0#4 ++ 0x0#4 :=
  (append_and (op ++ x ++ y) (0xF#4 ++ 0x0#4 ++ 0x0#4) n 0x0#4).trans
    (by rw [append_and, append_and, nibble_ones, BitVec.and_zero, BitVec.and_zero, BitVec.and_zero])

/-- The top and bottom nibbles of format `XYS` are its fixed bits. -/
theorem mask_XYS (op x y n : BitVec 4) : formatXYN op x y n &&& 0xF00F#16 = op ++ 0x0#4 ++ 0x0#4 ++ n :=
  (append_and (op ++ x ++ y) (0xF#4 ++ 0x0#4 ++ 0x0#4) n 0xF#4).trans
    (by rw [append_and, append_and, nibble_ones, nibble_ones, BitVec.and_zero, BitVec.and_zero])

/-- A word whose masked value is the row's match carries the row's fixed bits. -/
theorem of_mask {i : Instr} (h : encode i &&& (tableRow i).1 = (tableRow i).2) : Statement i := beq_iff_eq.mpr h

theorem clear : Statement .clear := rfl
theorem ret : Statement .ret := rfl

theorem jump (nnn : BitVec 12) : Statement (.jump nnn) := of_mask (mask_NNN 0x1#4 nnn)
theorem call (nnn : BitVec 12) : Statement (.call nnn) := of_mask (mask_NNN 0x2#4 nnn)
theorem loadI (nnn : BitVec 12) : Statement (.loadI nnn) := of_mask (mask_NNN 0xA#4 nnn)

theorem skipEqImm (x : Reg) (kk : Byte) : Statement (.skipEqImm x kk) := of_mask (mask_XKK 0x3#4 x kk)
theorem skipNeqImm (x : Reg) (kk : Byte) : Statement (.skipNeqImm x kk) := of_mask (mask_XKK 0x4#4 x kk)
theorem loadImm (x : Reg) (kk : Byte) : Statement (.loadImm x kk) := of_mask (mask_XKK 0x6#4 x kk)
theorem addImm (x : Reg) (kk : Byte) : Statement (.addImm x kk) := of_mask (mask_XKK 0x7#4 x kk)
theorem draw (x y : Reg) (n : BitVec 4) : Statement (.draw x y n) := of_mask (mask_XYN 0xD#4 x y n)

theorem skipEqReg (x y : Reg) : Statement (.skipEqReg x y) := of_mask (mask_XYS 0x5#4 x y 0x0#4)
theorem skipNeqReg (x y : Reg) : Statement (.skipNeqReg x y) := of_mask (mask_XYS 0x9#4 x y 0x0#4)
theorem loadReg (x y : Reg) : Statement (.loadReg x y) := of_mask (mask_XYS 0x8#4 x y 0x0#4)
theorem orReg (x y : Reg) : Statement (.orReg x y) := of_mask (mask_XYS 0x8#4 x y 0x1#4)
theorem andReg (x y : Reg) : Statement (.andReg x y) := of_mask (mask_XYS 0x8#4 x y 0x2#4)
theorem xorReg (x y : Reg) : Statement (.xorReg x y) := of_mask (mask_XYS 0x8#4 x y 0x3#4)
theorem addReg (x y : Reg) : Statement (.addReg x y) := of_mask (mask_XYS 0x8#4 x y 0x4#4)
theorem subReg (x y : Reg) : Statement (.subReg x y) := of_mask (mask_XYS 0x8#4 x y 0x5#4)
theorem shiftRight (x y : Reg) : Statement (.shiftRight x y) := of_mask (mask_XYS 0x8#4 x y 0x6#4)
theorem subnReg (x y : Reg) : Statement (.subnReg x y) := of_mask (mask_XYS 0x8#4 x y 0x7#4)
theorem shiftLeft (x y : Reg) : Statement (.shiftLeft x y) := of_mask (mask_XYS 0x8#4 x y 0xE#4)

theorem addI (x : Reg) : Statement (.addI x) := of_mask (mask_XS 0xF#4 x 0x1E#8)
theorem storeBcd (x : Reg) : Statement (.storeBcd x) := of_mask (mask_XS 0xF#4 x 0x33#8)
theorem storeRegs (x : Reg) : Statement (.storeRegs x) := of_mask (mask_XS 0xF#4 x 0x55#8)
theorem loadRegs (x : Reg) : Statement (.loadRegs x) := of_mask (mask_XS 0xF#4 x 0x65#8)

end Sys2Proof.Laws.TableRow
end

