-- ==== Sys2Proof/Laws/Ports.lean ====
section
/-!
SUPPORT. The laws of program load, of the placing of a word where the next step fetches, and of the reset state.
-/

namespace Sys2Proof.Machine

theorem copyBytes_eq_storeBytes (bs : List Byte) (m : Memory) (a : Nat) : copyBytes m a bs = storeBytes m a bs := by
  induction bs generalizing m a with
  | nil => rfl
  | cons b bs ih => simp [copyBytes, storeBytes, ih]

/-- The loader keeps memory's canonical form (20_memory.md R62). -/
theorem copyBytes_wf (bs : List Byte) {m : Memory} (hm : m.wf = true) {a : Nat} (h : a + bs.length ≤ 4096) :
    (copyBytes m a bs).wf = true := by
  rw [copyBytes_eq_storeBytes]
  exact storeBytes_wf bs hm a h

/-- What memory holds after the loader copied an image (R62). -/
theorem copyBytes_read (bs : List Byte) {m : Memory} (hm : m.wf = true) {a : Nat} (h : a + bs.length ≤ 4096) (c : Nat) :
    (copyBytes m a bs).read c = if a ≤ c ∧ c < a + bs.length then bs.getD (c - a) 0x00#8 else m.read c := by
  rw [copyBytes_eq_storeBytes, storeBytes_read bs hm a h]

theorem load_ok (bs : List Byte) (s : State) (h : 0x200 + bs.length ≤ 4096) :
    load bs s = .ok { s with mem := copyBytes s.mem 0x200 bs } :=
  if_neg (Nat.not_lt.mpr h)

theorem load_error (bs : List Byte) (s : State) (h : 4096 < 0x200 + bs.length) : load bs s = .loadError := if_pos h

theorem resetWith_mem_wf (v : Vector Byte 16) : (State.resetWith v).mem.wf = true := rfl
theorem resetWith_stack_wf (v : Vector Byte 16) : (State.resetWith v).stack.wf = true := rfl

/-- `withFetchWord` places the word where the next step fetches it. -/
theorem fetch_withFetchWord {s : State} (hm : s.mem.wf = true) (hp : s.pc.toNat + 1 < 4096) (w : Nat) (hw : w < 65536) :
    fetch (s.withFetchWord 16 w) = .ok (BitVec.ofNat 16 w) := by
  have hl : s.pc.toNat + (bytesOfOpcode (BitVec.ofNat 16 w)).length ≤ 4096 := by simp [bytesOfOpcode]; omega
  have hmem : (s.withFetchWord 16 w).mem = storeBytes s.mem s.pc.toNat (bytesOfOpcode (BitVec.ofNat 16 w)) := by
    simp [State.withFetchWord, placeWord, Nat.mod_eq_of_lt hw, writeSpan_ok _ hl]
  unfold fetch
  rw [show (s.withFetchWord 16 w).pc = s.pc from rfl, fetchWord_ok _ hp, hmem, storeBytes_read _ hm _ hl,
    storeBytes_read _ hm _ hl, if_pos (by simp [bytesOfOpcode]), if_pos (by simp [bytesOfOpcode])]
  simp only [bytesOfOpcode, Nat.sub_self, Nat.add_sub_cancel_left, List.getD_cons_zero, List.getD_cons_succ]
  rw [opcodeOfBytes_bytes]

end Sys2Proof.Machine
end

