-- ==== Sys2Proof/Laws/Step.lean ====
section
/-!
SUPPORT. Everything an instruction and a step can do, said once: each instruction is its own effect (`effectOf`)
retired at its next `PC`, and a step is a fetch fault, an instruction or an unrecognized word. Proofs about all
instructions cite these inversions and split on `effectOf`.
-/

namespace Sys2Proof.Machine

/-! ### Inversions of the shared operations -/

theorem map_ok_cases {α β : Type} {e : Except Fault α} {f : α → β} {b : β} (h : e.map f = .ok b) :
    ∃ a, e = .ok a ∧ b = f a := by
  cases e with
  | error _ => cases h
  | ok a => cases h; exact ⟨a, rfl, rfl⟩

/-- A pop that answers: the stack was not empty, and only `SP` changes. -/
theorem pop_cases {s : State} {r : Word × State} (h : pop s = .ok r) :
    s.sp ≠ 0 ∧ r = (s.stack.read (s.sp - 1), { s with sp := s.sp - 1 }) := by
  unfold pop at h
  split at h
  · cases h
  · rename_i h0
    cases h
    exact ⟨h0, rfl⟩

/-- A push that answers: the stack was not full, and only the entry at `SP` and `SP` change. -/
theorem push_cases {s t : State} {a : Word} (h : push s a = .ok t) :
    s.sp < Config.stackCapacity ∧ t = { s with stack := s.stack.write s.sp a, sp := s.sp + 1 } := by
  unfold push at h
  split at h
  · rename_i h0
    cases h
    exact ⟨h0, rfl⟩
  · cases h

/-- Everything a data read can do. -/
theorem readSpan_cases (m : Memory) (base n : Nat) :
    (readSpan m base n = .error (.outOfBounds (max base 4096)) ∧ n ≠ 0 ∧ 4096 < base + n) ∨
    (∃ bs, readSpan m base n = .ok bs ∧ (n = 0 ∨ base + n ≤ 4096)) := by
  by_cases h0 : n = 0
  · subst h0
    exact .inr ⟨_, readSpan_zero .., .inl rfl⟩
  · by_cases h : base + n ≤ 4096
    · exact .inr ⟨_, readSpan_ok _ h, .inr h⟩
    · exact .inl ⟨readSpan_error _ (by omega) (by omega), h0, by omega⟩

/-- Everything a data write of at least one byte can do. -/
theorem writeSpan_cases (m : Memory) (base : Nat) (bs : List Byte) (h0 : bs.length ≠ 0) :
    (writeSpan m base bs = .error (.outOfBounds (max base 4096)) ∧ 4096 < base + bs.length) ∨
    (∃ m', writeSpan m base bs = .ok m' ∧ base + bs.length ≤ 4096) := by
  by_cases h : base + bs.length ≤ 4096
  · exact .inr ⟨_, writeSpan_ok _ h, h⟩
  · exact .inl ⟨writeSpan_error _ (by omega) (by omega), by omega⟩

/-- A data write touches no byte outside its span. -/
theorem writeSpan_read {m m' : Memory} (hm : m.wf = true) {base : Nat} {bs : List Byte}
    (h : writeSpan m base bs = .ok m') {a : Nat} (ha : a < base ∨ base + bs.length ≤ a) : m'.read a = m.read a := by
  by_cases h0 : bs.length = 0
  · have : bs = [] := List.length_eq_zero_iff.mp h0
    subst this
    simp [writeSpan, spanCheck_ok, writeBytesFrom] at h
    rw [h]
  · rcases writeSpan_cases m base bs h0 with ⟨h1, _⟩ | ⟨_, _, hb⟩
    · rw [h1] at h; cases h
    · rw [writeSpan_ok _ hb] at h
      cases h
      rw [storeBytes_read _ hm _ hb, if_neg (by omega)]

/-! ### Taking a fault -/

/-- What fault entry leaves is a fault taken, with the address it records. -/
theorem faultTaken_faultEntry (f : Fault) (w : Opcode) (s : State) {a : Nat} (h : (faultAddrOf f).toNat = a) :
    FaultTaken (faultCodeOf f) w a s (faultEntry f w s) := by
  constructor <;> first | rfl | exact h

/-- 17 bits hold every address the core forms. -/
theorem faultAddr_outOfBounds {a : Nat} (h : a < 131072) : (faultAddrOf (.outOfBounds a)).toNat = a := by
  simp [faultAddrOf]; omega

/-- An instruction that is a plain effect retired at `target` runs as `RunsTo` says. -/
theorem runsTo_of_retire (i : Instr) (s t : State) (target : Nat) (post : State → Prop) (hT : target < 131072)
    (he : exec i s = retire i s target (.ok t)) (h1 : SameTimers s t) (h2 : SameRecord s t)
    (hp : post { t with pc := BitVec.ofNat 16 target, runState := .running }) : RunsTo i s target post :=
  ⟨fun h => ⟨_, he.trans (retire_ok i s t h), ⟨ofNat_toNat_of_lt h, rfl, h1, h2⟩, hp⟩,
   fun h => ⟨_, he.trans (retire_target i s t h), faultTaken_faultEntry _ _ _ (faultAddr_outOfBounds hT)⟩⟩

/-! ### Instructions -/

/-- What an instruction does before `NextPC`: its own checks and writes. -/
def effectOf (i : Instr) (s : State) : Except Fault State :=
  match i with
  | .clear => .ok { s with fb := clearedFramebuffer }
  | .ret => (pop s).map Prod.snd
  | .jump _ => .ok s
  | .call _ => push s (BitVec.ofNat 16 (followingAddress s))
  | .skipEqImm _ _ | .skipNeqImm _ _ | .skipEqReg _ _ | .skipNeqReg _ _ => .ok s
  | .loadImm x kk => .ok (s.setV x kk)
  | .addImm x kk => .ok (s.setV x (s.getV x + kk))
  | .loadReg x y => .ok (s.setV x (s.getV y))
  | .orReg x y => .ok (s.setV x (s.getV x ||| s.getV y))
  | .andReg x y => .ok (s.setV x (s.getV x &&& s.getV y))
  | .xorReg x y => .ok (s.setV x (s.getV x ^^^ s.getV y))
  | .addReg x y => .ok (s.setFlagThenV (carryFlag (s.getV x) (s.getV y)) x (s.getV x + s.getV y))
  | .subReg x y => .ok (s.setFlagThenV (noBorrowFlag (s.getV x) (s.getV y)) x (s.getV x - s.getV y))
  | .shiftRight x y => .ok (s.setFlagThenV (shiftedOutRight (s.getV y)) x (s.getV y >>> 1))
  | .subnReg x y => .ok (s.setFlagThenV (noBorrowFlag (s.getV y) (s.getV x)) x (s.getV y - s.getV x))
  | .shiftLeft x y => .ok (s.setFlagThenV (shiftedOutLeft (s.getV y)) x (s.getV y <<< 1))
  | .loadI nnn => .ok { s with i := indexImmediate nnn }
  | .draw x y n => (readSpan s.mem (dataBase s) n.toNat).map (drawSprite x y s)
  | .addI x => .ok { s with i := s.i + (s.getV x).setWidth 16 }
  | .storeBcd x => (writeSpan s.mem (dataBase s) (bcdDigits (s.getV x))).map fun m => { s with mem := m }
  | .storeRegs x => (writeSpan s.mem (dataBase s) (regsUpTo s x)).map fun m => { s with mem := m }
  | .loadRegs x => (readSpan s.mem (dataBase s) (regCount x)).map fun bs => { s with v := writeRegsFrom s.v 0 bs }

/-- Every instruction is its effect retired at its next `PC`. -/
theorem exec_eq_retire (i : Instr) (s : State) : exec i s = retire i s (nextPcOf i s) (effectOf i s) := by
  cases i
  case ret =>
    simp only [exec, execRet, effectOf, nextPcOf, retire]
    by_cases h : s.sp = 0
    · simp [pop_error s h]
    · simp only [pop_ok s h, bind_ok, map_ok]
  case skipEqImm => simp [exec, execSkipEqImm, nextPcOf, effectOf, skipAddress, instrAddress]
  case skipNeqImm => simp [exec, execSkipNeqImm, nextPcOf, effectOf, skipAddress, instrAddress]
  case skipEqReg => simp [exec, execSkipEqReg, nextPcOf, effectOf, skipAddress, instrAddress]
  case skipNeqReg => simp [exec, execSkipNeqReg, nextPcOf, effectOf, skipAddress, instrAddress]
  all_goals rfl

/-- Everything an instruction can do: take a fault, or commit its effect at its next `PC`. -/
theorem exec_cases (i : Instr) (s t : State) (h : exec i s = .next t) :
    (∃ f, t = faultEntry f (encode i) s) ∨
    (∃ u, effectOf i s = .ok u ∧ nextPcOf i s < 4096 ∧
      t = { u with pc := BitVec.ofNat 16 (nextPcOf i s), runState := .running }) := by
  rw [exec_eq_retire] at h
  rcases retire_cases i s (nextPcOf i s) (effectOf i s) with ⟨f, _, h'⟩ | ⟨u, _, _, h'⟩ | ⟨u, h1, h2, h'⟩ <;>
    rw [h'] at h <;> cases h
  · exact .inl ⟨_, rfl⟩
  · exact .inl ⟨_, rfl⟩
  · exact .inr ⟨u, h1, h2, rfl⟩

/-- Everything an unrecognized word can do. -/
theorem execUnrecognized_cases (w : Opcode) (s : State) :
    (s.pc.toNat + 2 < 4096 ∧
      execUnrecognized w s = .next { s with pc := BitVec.ofNat 16 (s.pc.toNat + 2), runState := .running }) ∨
    (4096 ≤ s.pc.toNat + 2 ∧ execUnrecognized w s = .next (faultEntry (.outOfBounds (s.pc.toNat + 2)) w s)) := by
  by_cases h : s.pc.toNat + 2 < 4096
  · exact .inl ⟨h, by simp [execUnrecognized, followingAddress, instrAddress, nextPc_ok h]⟩
  · exact .inr ⟨by omega, by simp [execUnrecognized, followingAddress, instrAddress, nextPc_error (Nat.le_of_not_lt h)]⟩

/-! ### Steps -/

theorem step_halted (s : State) (h : s.runState = .halted) : step s = .next s := by
  simp [step, h, haltedTick]

/-- Everything a step of a core that is not Halted can do. -/
theorem step_cases (s : State) (hr : s.runState ≠ .halted) :
    (∃ f, fetch s = .error f ∧ step s = .next (faultEntry f 0x0000#16 s)) ∨
    (∃ w i, fetch s = .ok w ∧ decode w = .instr i ∧ step s = exec i s) ∨
    (∃ w g, fetch s = .ok w ∧ decode w = .unrecognized g ∧ step s = execUnrecognized w s) := by
  unfold step
  cases h : s.runState
  case halted => exact absurd h hr
  all_goals
    dsimp only
    cases hf : fetch s with
    | error f => exact .inl ⟨f, rfl, rfl⟩
    | ok w =>
      dsimp only
      cases hd : decode w with
      | instr i => exact .inr (.inl ⟨w, i, rfl, hd, rfl⟩)
      | unrecognized g => exact .inr (.inr ⟨w, g, rfl, hd, rfl⟩)

end Sys2Proof.Machine
end

