-- ==== Sys2Proof/Tests/Slice0.lean ====
section
/-!
SUPPORT. The model's own tests: ill-formed operands refused, one word per constructor decoded, vectors of
95_test_vectors.md (each test names its row), and for every obligation with hypotheses a state that meets them.
-/

namespace Sys2Proof.Tests

open Sys2Proof Sys2Proof.Machine

/-! ### Helpers -/

/-- The conventions of 95_test_vectors.md: the word at `a`, everything else 0, Running. -/
def stateAt (a w : Nat) : State :=
  ({ State.resetWith (Vector.replicate 16 0x00#8) with pc := BitVec.ofNat 16 a, runState := .running }).withFetchWord 16 w

/-- Set some registers. -/
def regs (l : List (Reg × Byte)) (s : State) : State := l.foldl (fun t p => t.setV p.1 p.2) s

/-- Set some bytes of memory. -/
def bytes (l : List (Nat × Byte)) (s : State) : State := l.foldl (fun t p => { t with mem := t.mem.write p.1 p.2 }) s

/-- Turn on some cells. -/
def cells (l : List (Nat × Nat)) (s : State) : State := { s with fb := xorPixels s.fb l }

/-- The state a tick answers. -/
def after (s : State) : State :=
  match step s with
  | .next t => t
  | .fault _ => s
  | .refused _ => s

/-- The fault record, as 95_test_vectors.md writes it. -/
def record (s : State) : RunState × FaultCode × Nat × Nat × Nat :=
  (s.runState, s.faultCode, s.faultPc.toNat, s.faultOpcode.toNat, s.faultAddr.toNat)

/-! ### WellFormed: each range check refuses (30_encoding.md R71, R80) -/

theorem test_unfit_x : RawOperands.fits { x := 16 } = false := by decide
theorem test_unfit_y : RawOperands.fits { y := 16 } = false := by decide
theorem test_unfit_n : RawOperands.fits { n := 16 } = false := by decide
theorem test_unfit_kk : RawOperands.fits { kk := 256 } = false := by decide
theorem test_unfit_nnn : RawOperands.fits { nnn := 4096 } = false := by decide
theorem test_fit_at_top : RawOperands.fits { x := 15, y := 15, n := 15, kk := 255, nnn := 4095 } = true := by decide
theorem test_wellFormed : Instr.wellFormed (.draw 0xF 0xF 0xF) = true := by decide
theorem test_assemble_unfit : assemble "LOAD_IMM" [.reg 0, .num 256] = none ∧ assemble "JUMP" [.num 0x1000] = none ∧
    assemble "DRAW" [.reg 0, .reg 1, .num 16] = none := by decide
theorem test_assemble_wrong_shape : assemble "JUMP" [.reg 1] = none ∧ assemble "CLS" [] = none := by decide

/-- R81: `.byte 0xC0, 0x80` and `.word 0xFFFF`, high byte first. -/
theorem test_directives : assembleProgram [.bytes [0xC0, 0x80], .words [0x120A]] = some [0xC0, 0x80, 0x12, 0x0A] ∧
    asmItemBytes (.bytes [256]) = none ∧ asmItemBytes (.words [0x10000]) = none := by decide

/-- Program 1 of 95_test_vectors.md, its bytes as listed there. -/
theorem test_assemble_program1 :
    assembleProgram ([.instr "LOAD_IMM" [.reg 0, .num 0], .instr "LOAD_IMM" [.reg 1, .num 5]] ++
      [.instr "ADD_REG" [.reg 0, .reg 1], .instr "ADD_IMM" [.reg 1, .num 0xFF]] ++
      [.instr "SKIP_EQ_IMM" [.reg 1, .num 0], .instr "JUMP" [.num 0x204], .instr "JUMP" [.num 0x20C]]) =
    some ([0x60, 0x00, 0x61, 0x05, 0x80, 0x14, 0x71] ++ [0xFF, 0x31, 0x00, 0x12, 0x04, 0x12, 0x0C]) := by decide

/-- R80's syntax as text. -/
theorem test_text : instrText (.loadImm 0xA 0x7F) = "LOAD_IMM VA, 0x7F" ∧ instrText (.draw 0 1 15) = "DRAW V0, V1, 15" := by
  decide

/-! ### Decode: one word per constructor, bit by bit from the formats of R72, R75, R76 -/

theorem test_decode_clear : decode 0b0000000011100000#16 = .instr (.clear) := by decide
theorem test_decode_ret : decode 0b0000000011101110#16 = .instr (.ret) := by decide
theorem test_decode_jump : decode 0b0001001000110100#16 = .instr (.jump 0x234) := by decide
theorem test_decode_call : decode 0b0010001100000000#16 = .instr (.call 0x300) := by decide
theorem test_decode_skipEqImm : decode 0b0011001101000010#16 = .instr (.skipEqImm 3 0x42) := by decide
theorem test_decode_skipNeqImm : decode 0b0100101001000010#16 = .instr (.skipNeqImm 0xA 0x42) := by decide
theorem test_decode_skipEqReg : decode 0b0101000100100000#16 = .instr (.skipEqReg 1 2) := by decide
theorem test_decode_loadImm : decode 0b0110101001111111#16 = .instr (.loadImm 0xA 0x7F) := by decide
theorem test_decode_addImm : decode 0b0111001000100000#16 = .instr (.addImm 2 0x20) := by decide
theorem test_decode_loadReg : decode 0b1000000101010000#16 = .instr (.loadReg 1 5) := by decide
theorem test_decode_orReg : decode 0b1000001100010001#16 = .instr (.orReg 3 1) := by decide
theorem test_decode_andReg : decode 0b1000000011000010#16 = .instr (.andReg 0 0xC) := by decide
theorem test_decode_xorReg : decode 0b1000011100010011#16 = .instr (.xorReg 7 1) := by decide
theorem test_decode_addReg : decode 0b1000111100010100#16 = .instr (.addReg 0xF 1) := by decide
theorem test_decode_subReg : decode 0b1000001101100101#16 = .instr (.subReg 3 6) := by decide
theorem test_decode_shiftRight : decode 0b1000000011110110#16 = .instr (.shiftRight 0 0xF) := by decide
theorem test_decode_subnReg : decode 0b1000010100010111#16 = .instr (.subnReg 5 1) := by decide
theorem test_decode_shiftLeft : decode 0b1000100100011110#16 = .instr (.shiftLeft 9 1) := by decide
theorem test_decode_skipNeqReg : decode 0b1001000100100000#16 = .instr (.skipNeqReg 1 2) := by decide
theorem test_decode_loadI : decode 0b1010001011110000#16 = .instr (.loadI 0x2F0) := by decide
theorem test_decode_draw : decode 0b1101000000011111#16 = .instr (.draw 0 1 0xF) := by decide
theorem test_decode_addI : decode 0b1111010000011110#16 = .instr (.addI 4) := by decide
theorem test_decode_storeBcd : decode 0b1111010100110011#16 = .instr (.storeBcd 5) := by decide
theorem test_decode_storeRegs : decode 0b1111001101010101#16 = .instr (.storeRegs 3) := by decide
theorem test_decode_loadRegs : decode 0b1111000101100101#16 = .instr (.loadRegs 1) := by decide

/-- The close misses of 95_test_vectors.md U1 to U6c and CF14, one per group of R77 and more. -/
theorem test_decode_unrecognized :
    decode 0x0000 = .unrecognized .zeroFamily ∧ decode 0x0123 = .unrecognized .zeroFamily ∧
    decode 0x00E1 = .unrecognized .zeroFamily ∧ decode 0x5121 = .unrecognized .fiveFamily ∧
    decode 0x801F = .unrecognized .eightFamily ∧ decode 0x8018 = .unrecognized .eightFamily ∧
    decode 0x9121 = .unrecognized .nineFamily ∧ decode 0xB200 = .unrecognized .noFamily ∧
    decode 0xC0FF = .unrecognized .noFamily ∧ decode 0xE09E = .unrecognized .noFamily ∧
    decode 0xF007 = .unrecognized .fFamily ∧ decode 0xF029 = .unrecognized .fFamily ∧
    decode 0xF01F = .unrecognized .fFamily ∧ decode 0xFFFF = .unrecognized .fFamily := by decide

theorem test_decodeTableWord : decodeTableWord 16 0x8014 = some (.addReg 0 1) ∧ decodeTableWord 16 0xB200 = none := by
  decide

theorem test_decodeBytes : decodeBytes [0x12, 0x34, 0x56] = .word (.instr (.jump 0x234)) [0x56] ∧
    decodeBytes [0x12] = .truncated ∧ decodeBytes [] = .truncated := by decide

/-! ### Control flow -/

/-- CF1. -/
theorem test_jump : (after (stateAt 0x200 0x1234)).pc = 0x234 := by decide
/-- CF3: nothing changes. -/
theorem test_jump_self : after (stateAt 0x300 0x1300) = stateAt 0x300 0x1300 := by decide
/-- CF4b. -/
theorem test_fetch_top : record (after (after (stateAt 0x200 0x1FFF))) = (.halted, .outOfBounds, 0xFFF, 0, 0x1000) := by decide
/-- CF5. -/
theorem test_call :
    let t := after (stateAt 0x200 0x2300)
    t.stack.read 0 = 0x202 ∧ t.sp = 1 ∧ t.pc = 0x300 := by decide
/-- CF6, at the capacity of the model. -/
theorem test_call_full :
    let s : State := { stateAt 0x200 0x2300 with sp := Config.stackCapacity }
    step s = .next (faultEntry .stackOverflow 0x2300 s) :=
  congrArg (retire (.call 0x300) { stateAt 0x200 0x2300 with sp := Config.stackCapacity } 0x300) (if_neg (Nat.lt_irrefl _))
/-- CF7b. -/
theorem test_return_outOfBounds :
    let t := after { stateAt 0x400 0x00EE with sp := 1, stack := [(0, 0x1000)] }
    record t = (.halted, .outOfBounds, 0x400, 0x00EE, 0x1000) ∧ t.sp = 1 := by decide
/-- CF8. -/
theorem test_return :
    let t := after { stateAt 0x400 0x00EE with sp := 1, stack := [(0, 0x304)] }
    t.sp = 0 ∧ t.pc = 0x304 ∧ t.stack.read 0 = 0x304 := by decide
/-- CF9. -/
theorem test_return_empty : record (after (stateAt 0x400 0x00EE)) = (.halted, .stackUnderflow, 0x400, 0x00EE, 0) := by decide
/-- CF10a, CF10b. -/
theorem test_skipEqImm : (after (regs [(3, 0x42)] (stateAt 0x200 0x3342))).pc = 0x204 ∧
    (after (regs [(3, 0x41)] (stateAt 0x200 0x3342))).pc = 0x202 := by decide
/-- CF15a, CF15b, CF16. -/
theorem test_skipEqImm_top : record (after (stateAt 0xFFC 0x3000)) = (.halted, .outOfBounds, 0xFFC, 0x3000, 0x1000) ∧
    (after (stateAt 0xFFC 0x3001)).pc = 0xFFE ∧
    record (after (stateAt 0xFFE 0x3001)) = (.halted, .outOfBounds, 0xFFE, 0x3001, 0x1000) := by decide
/-- CF11a, CF11b. -/
theorem test_skipNeqImm : (after (regs [(3, 0x42)] (stateAt 0x200 0x4342))).pc = 0x202 ∧
    (after (stateAt 0x200 0x4342)).pc = 0x204 := by decide
/-- CF12a, CF12b, CF12c. -/
theorem test_skipEqReg : (after (regs [(1, 7), (2, 7)] (stateAt 0x200 0x5120))).pc = 0x204 ∧
    (after (regs [(1, 7), (2, 8)] (stateAt 0x200 0x5120))).pc = 0x202 ∧
    (after (regs [(1, 9)] (stateAt 0x200 0x5110))).pc = 0x204 := by decide
/-- CF13a, CF13b. -/
theorem test_skipNeqReg : (after (regs [(1, 7), (2, 8)] (stateAt 0x200 0x9120))).pc = 0x204 ∧
    (after (regs [(1, 7), (2, 7)] (stateAt 0x200 0x9120))).pc = 0x202 := by decide

/-! ### Arithmetic and logic -/

/-- A1a. -/
theorem test_loadImm : (after (stateAt 0x200 0x6AFF)).getV 0xA = 0xFF := by decide
/-- A22. -/
theorem test_loadImm_top :
    let t := after (stateAt 0xFFE 0x6001)
    record t = (.halted, .outOfBounds, 0xFFE, 0x6001, 0x1000) ∧ t.getV 0 = 0 := by decide
/-- A2a: no carry flag. -/
theorem test_addImm :
    let t := after (regs [(0, 0xFF), (0xF, 0x55)] (stateAt 0x200 0x7001))
    t.getV 0 = 0 ∧ t.getV 0xF = 0x55 := by decide
/-- A3. -/
theorem test_loadReg : (after (regs [(1, 0x5A)] (stateAt 0x200 0x8010))).getV 0 = 0x5A := by decide
/-- A4. -/
theorem test_or :
    let t := after (regs [(0, 0xF0), (1, 0x0F), (0xF, 0x55)] (stateAt 0x200 0x8011))
    t.getV 0 = 0xFF ∧ t.getV 0xF = 0x55 := by decide
/-- A5. -/
theorem test_and :
    let t := after (regs [(0, 0xF0), (1, 0x3C), (0xF, 0x55)] (stateAt 0x200 0x8012))
    t.getV 0 = 0x30 ∧ t.getV 0xF = 0x55 := by decide
/-- A6a. -/
theorem test_xor : (after (regs [(0, 0xF0), (1, 0x3C)] (stateAt 0x200 0x8013))).getV 0 = 0xCC := by decide
/-- A7a, A7b. -/
theorem test_addReg :
    let t := after (regs [(0, 250), (1, 10)] (stateAt 0x200 0x8014))
    let u := after (regs [(0, 0x80), (1, 0x7F), (0xF, 1)] (stateAt 0x200 0x8014))
    t.getV 0 = 4 ∧ t.getV 0xF = 1 ∧ u.getV 0 = 0xFF ∧ u.getV 0xF = 0 := by decide
/-- A8b, A9: the flag register as destination and as source. -/
theorem test_addReg_flag :
    let t := after (regs [(0xF, 0xFF), (1, 2)] (stateAt 0x200 0x8F14))
    let u := after (regs [(0, 0xFF), (0xF, 1)] (stateAt 0x200 0x80F4))
    t.getV 0xF = 1 ∧ u.getV 0 = 0 ∧ u.getV 0xF = 1 := by decide
/-- A11a, A11b. -/
theorem test_subReg :
    let t := after (regs [(0, 5), (1, 10)] (stateAt 0x200 0x8015))
    let u := after (regs [(0, 10), (1, 10)] (stateAt 0x200 0x8015))
    t.getV 0 = 0xFB ∧ t.getV 0xF = 0 ∧ u.getV 0 = 0 ∧ u.getV 0xF = 1 := by decide
/-- A12: operands read first. -/
theorem test_subReg_flag : (after (regs [(0xF, 5), (1, 3)] (stateAt 0x200 0x8F15))).getV 0xF = 2 := by decide
/-- A14d: the old destination is ignored. -/
theorem test_shiftRight :
    let t := after (regs [(0, 0x77), (1, 2)] (stateAt 0x200 0x8016))
    t.getV 0 = 1 ∧ t.getV 0xF = 0 := by decide
/-- A15, A16. -/
theorem test_shiftRight_flag :
    let t := after (regs [(0xF, 3)] (stateAt 0x200 0x80F6))
    (after (regs [(1, 4)] (stateAt 0x200 0x8F16))).getV 0xF = 2 ∧ t.getV 0 = 1 ∧ t.getV 0xF = 1 := by decide
/-- A17a, A17b. -/
theorem test_subnReg :
    let t := after (regs [(0, 10), (1, 5)] (stateAt 0x200 0x8017))
    let u := after (regs [(0, 5), (1, 10)] (stateAt 0x200 0x8017))
    t.getV 0 = 0xFB ∧ t.getV 0xF = 0 ∧ u.getV 0 = 5 ∧ u.getV 0xF = 1 := by decide
/-- A18a, A18b. -/
theorem test_shiftLeft :
    let t := after (regs [(1, 0x81)] (stateAt 0x200 0x801E))
    let u := after (regs [(1, 0x40), (0xF, 1)] (stateAt 0x200 0x801E))
    t.getV 0 = 2 ∧ t.getV 0xF = 1 ∧ u.getV 0 = 0x80 ∧ u.getV 0xF = 0 := by decide
/-- A19. -/
theorem test_shiftLeft_flag : (after (regs [(1, 0x81)] (stateAt 0x200 0x8F1E))).getV 0xF = 2 := by decide

/-! ### Index register and memory -/

/-- M1. -/
theorem test_loadI : (after (stateAt 0x200 0xA123)).i = 0x123 := by decide
/-- M2b, M2c. -/
theorem test_addI : (after (regs [(0, 2)] { stateAt 0x200 0xF01E with i := 0xFFFF })).i = 1 ∧
    (after (regs [(0, 1)] { stateAt 0x200 0xF01E with i := 0xFFF })).i = 0x1000 := by decide
/-- M3d, M4b. -/
theorem test_storeBcd :
    let t := after (regs [(5, 255)] { stateAt 0x200 0xF533 with i := 0x300 })
    let u := after (regs [(0, 249)] { stateAt 0x200 0xF033 with i := 0xFFD })
    t.mem.read 0x300 = 2 ∧ t.mem.read 0x301 = 5 ∧ t.mem.read 0x302 = 5 ∧ u.mem.read 0xFFF = 9 := by decide
/-- M4a, M9, M10. -/
theorem test_storeBcd_faults :
    let s := regs [(0, 249)] { stateAt 0x200 0xF033 with i := 0xFFE }
    record (after s) = (.halted, .outOfBounds, 0x200, 0xF033, 0x1000) ∧ (after s).mem = s.mem ∧
    record (after { stateAt 0xFFE 0xF033 with i := 0x1005 }) = (.halted, .outOfBounds, 0xFFE, 0xF033, 0x1005) ∧
    record (after { stateAt 0xFFE 0xF033 with i := 0x300 }) = (.halted, .outOfBounds, 0xFFE, 0xF033, 0x1000) := by decide
/-- M5a, M5b. -/
theorem test_storeRegs :
    let t := after (regs [(0, 1), (1, 2), (2, 3), (3, 4)] { stateAt 0x200 0xF355 with i := 0x300 })
    let u := after (regs [(0, 0xAB), (1, 0xCD)] { stateAt 0x200 0xF055 with i := 0x300 })
    t.mem.read 0x300 = 1 ∧ t.mem.read 0x303 = 4 ∧ t.i = 0x300 ∧ u.mem.read 0x300 = 0xAB ∧ u.mem.read 0x301 = 0 := by decide
/-- M6a, M6c, M6d. -/
theorem test_storeRegs_faults :
    record (after { stateAt 0x200 0xFF55 with i := 0xFF8 }) = (.halted, .outOfBounds, 0x200, 0xFF55, 0x1000) ∧
    record (after { stateAt 0x200 0xF055 with i := 0xFFFF }) = (.halted, .outOfBounds, 0x200, 0xF055, 0xFFFF) ∧
    (after (regs [(0, 1)] { stateAt 0x200 0xF055 with i := 0xFFF })).mem.read 0xFFF = 1 := by decide
/-- M7. -/
theorem test_loadRegs :
    let t := after (bytes [(0x300, 7), (0x301, 8), (0x302, 9)] (regs [(3, 0x33)] { stateAt 0x200 0xF265 with i := 0x300 }))
    t.getV 0 = 7 ∧ t.getV 2 = 9 ∧ t.getV 3 = 0x33 ∧ t.i = 0x300 := by decide
/-- M8, M11. -/
theorem test_loadRegs_all :
    (after (bytes [(0x30F, 0x5A)] { stateAt 0x200 0xFF65 with i := 0x300 })).getV 0xF = 0x5A ∧
    record (after { stateAt 0x200 0xFF65 with i := 0xFFFF }) = (.halted, .outOfBounds, 0x200, 0xFF65, 0xFFFF) := by decide

/-! ### Display -/

/-- D1. -/
theorem test_clear :
    let t := after (cells [(0, 0), (31, 63)] (regs [(0xF, 0x55)] (stateAt 0x200 0x00E0)))
    t.fb = clearedFramebuffer ∧ t.getV 0xF = 0x55 := by decide
/-- D3: wraps right and bottom. -/
theorem test_draw_wraps :
    let t := after (bytes [(0x300, 0xC0), (0x301, 0x80)] (regs [(0, 62), (1, 31)] { stateAt 0x200 0xD012 with i := 0x300 }))
    t.fb = (cells [(31, 62), (31, 63), (0, 62)] (stateAt 0 0)).fb ∧ t.getV 0xF = 0 := by decide
/-- D5 and D9: a collision, and the old flag register as the column. -/
theorem test_draw_collides :
    let t := after (cells [(0, 0)] (bytes [(0x300, 0xC0)] { stateAt 0x200 0xD011 with i := 0x300 }))
    let u := after (bytes [(0x300, 0x80)] (regs [(0xF, 5)] { stateAt 0x200 0xDF01 with i := 0x300 }))
    t.fb.cell 0 0 = false ∧ t.fb.cell 0 1 = true ∧ t.getV 0xF = 1 ∧ u.fb.cell 0 5 = true ∧ u.getV 0xF = 0 := by decide
/-- D7, D8a, D8b. -/
theorem test_draw_bounds :
    let t := after (regs [(0xF, 1)] { stateAt 0x200 0xD010 with i := 0xFFFF })
    t.getV 0xF = 0 ∧ t.runState = .running ∧
    record (after { stateAt 0x200 0xD012 with i := 0xFFF }) = (.halted, .outOfBounds, 0x200, 0xD012, 0x1000) ∧
    (after (bytes [(0xFFF, 1)] { stateAt 0x200 0xD011 with i := 0xFFF })).fb.cell 0 7 = true := by decide

/-! ### Unrecognized words and reports -/

/-- U1, U5. -/
theorem test_unrecognized :
    (after (stateAt 0x300 0xFFFF)).pc = 0x302 ∧ report (stateAt 0x300 0xFFFF) = .unknownOpcode 0x300 0xFFFF ∧
    record (after (stateAt 0xFFE 0xFFFF)) = (.halted, .outOfBounds, 0xFFE, 0xFFFF, 0x1000) ∧
    report (stateAt 0xFFE 0xFFFF) = .none := by decide
/-- U7: an odd address fetches normally. -/
theorem test_odd_fetch : (after (stateAt 0x201 0x00E0)).pc = 0x203 ∧ report (stateAt 0x201 0x00E0) = .none := by decide
/-- R46: the record of a completed tick, and none for a faulting one. -/
theorem test_trace :
    trace (stateAt 0x200 0x6AFF) = some (TraceRecord.mk "LOAD_IMM" [.reg 0xA, .num 0xFF] 0x6AFF 0x200) ∧
    trace (stateAt 0x300 0xFFFF) = some (TraceRecord.mk "UNKNOWN" [] 0xFFFF 0x300) ∧ trace (stateAt 0xFFE 0x6001) = none := by decide

/-! ### Executor, host ports and reset -/

/-- A session around a core. -/
def sessionOf (s : State) : Session := { core := s, loaded := false, loadFailed := false }

/-- A Halted core with code 3, its word LOAD_IMM V0, 5 (X1). -/
def haltedAt : State := { stateAt 0x200 0x6005 with runState := .halted, faultCode := .stackUnderflow, faultPc := 0x200 }

/-- X1. -/
theorem test_halted_tick : step haltedAt = .next haltedAt ∧ report haltedAt = .none ∧ trace haltedAt = none :=
  ⟨rfl, by decide, by decide⟩
/-- X2, from the reset state. -/
theorem test_tick_from_reset :
    let t := after (State.reset.withFetchWord 16 0x6005)
    t.getV 0 = 5 ∧ t.pc = 0x202 ∧ t.runState = .running := by decide
/-- X3. -/
theorem test_tick_empty : (after State.reset).pc = 0x202 ∧ (after State.reset).runState = .running ∧
    report State.reset = .unknownOpcode 0x200 0x0000 := by decide
/-- A load of the bytes of program 4, then its first word runs (R62, R144). -/
theorem test_load :
    (sessionMove (sessionOf State.reset) (.load [0x22, 0x00])).map (fun p => (p.2, (after p.1.core).sp)) = some (.loadOk, 1) := by
  decide
/-- X5. -/
theorem test_load_too_long (b : Byte) : load (List.replicate 3585 b) State.reset = .loadError := by
  unfold load
  rw [List.length_replicate]
  rfl
/-- X6, and no second load. -/
theorem test_load_empty :
    (sessionMove (sessionOf State.reset) (.load [])).map (fun p => (p.2, decide (p.1.core = State.reset), (sessionMove p.1 (.load [])).isNone))
      = some (.loadOk, true, true) := by decide
/-- X7, X8, X10. -/
theorem test_timers :
    (timerDecrement (timerWrite .dt 3 State.reset)).dt = 2 ∧ (timerDecrement (timerWrite .dt 3 State.reset)).st = 0 ∧
    (timerDecrement { haltedAt with dt := 5, st := 1 }).dt = 4 ∧ (timerDecrement { haltedAt with dt := 5, st := 1 }).st = 0 ∧
    timerRead .dt { haltedAt with dt := 2 } = 2 := by decide
/-- X11, from a Halted state. -/
theorem test_reset : (sessionMove (sessionOf haltedAt) (.reset (Vector.replicate 16 0xFF))).map (fun p =>
    (p.1.core.getV 3, p.1.core.pc, p.1.core.runState, p.1.core.mem)) = some (0xFF, 0x200, .idle, []) := by decide
/-- R31, R121: the status codes of a Halted core. -/
theorem test_status : status haltedAt = Status.mk 2 3 0x200 0 0 := by decide

/-! ### Witnesses: for every statement with hypotheses, a state and operands that meet them, at the edges of each clause -/

theorem witness_EncodeOfDecode : decode 0x8F14 = .instr (.addReg 0xF 1) := by decide
theorem witness_OpcodeTableUnambiguous : (0xF00F#16, 0x8004#16) ∈ opcodeTable ∧ matchesRow 0x8F14 (0xF00F#16, 0x8004#16) = true := by
  decide
/-- The fields of `0xDF1E`; the words of the clauses are those of the decode tests. -/
theorem witness_DecodeFollowsOpcodeMap :
    (0xF : Reg).toNat = (0xDF1E : Opcode).toNat / 256 % 16 ∧ (0x1 : Reg).toNat = (0xDF1E : Opcode).toNat / 16 % 16 ∧
    (0xE : BitVec 4).toNat = (0xDF1E : Opcode).toNat % 16 ∧ (0x1E : Byte).toNat = (0xDF1E : Opcode).toNat % 256 ∧
    (0xF1E : BitVec 12).toNat = (0xDF1E : Opcode).toNat % 4096 ∧ (0xDF1E : Opcode).toNat / 4096 = 0xD := by decide
theorem witness_AssemblerRefusesUnfit : 255 < 256 ∧ 0xFFF < 0x1000 ∧ 15 < 16 := by decide
theorem witness_BytePrimitivesCheckAddress : Memory.wf [(0xFFF, 1)] = true ∧ 0xFFF < 4096 ∧ 4096 ≤ 0x1000 := by decide
theorem witness_FetchIsBigEndian : 0xFFE + 1 < 4096 ∧ 4096 ≤ 0xFFF + 1 := by decide
theorem witness_StepRunsDecodedInstruction :
    let s := stateAt 0xFFE 0x1234
    s.runState ≠ .halted ∧ s.pc.toNat + 1 < 4096 ∧
    decode (opcodeOfBytes (s.mem.read s.pc.toNat) (s.mem.read (s.pc.toNat + 1))) = .instr (.jump 0x234) := by decide
theorem witness_FetchFaultOnlyAtTop :
    (stateAt 0xFFF 0).runState ≠ .halted ∧ (stateAt 0xFFF 0).pc.toNat < 4096 ∧ (stateAt 0xFFF 0).pc = 0xFFF ∧
    (stateAt 0xFFE 0).pc.toNat < 4096 ∧ (stateAt 0xFFE 0).pc ≠ 0xFFF := by decide
theorem witness_UnrecognizedIsReportedAndSkipped :
    let s := stateAt 0xFFD 0xFFFF
    let t := stateAt 0xFFE 0xFFFF
    decode 0xFFFF = .unrecognized .fFamily ∧
    (s.runState ≠ .halted ∧ s.pc.toNat + 2 < 4096) ∧ (t.runState ≠ .halted ∧ 4096 ≤ t.pc.toNat + 2) := by decide
theorem witness_Unrecognized_fetch :
    fetch (stateAt 0xFFD 0xFFFF) = .ok 0xFFFF ∧ fetch (stateAt 0xFFE 0xFFFF) = .ok 0xFFFF := ⟨rfl, rfl⟩
theorem witness_HaltedTickHasNoEffect : (sessionOf haltedAt).core.runState = .halted := by decide
theorem witness_TraceOfCompletedTick :
    fetch haltedAt = .ok 0x6005 ∧ haltedAt.runState = .halted ∧
    fetch (stateAt 0x200 0x6005) = .ok 0x6005 ∧ (stateAt 0x200 0x6005).runState ≠ .halted ∧
    (after (stateAt 0x200 0x6005)).runState = .running ∧
    fetch (stateAt 0xFFE 0x6005) = .ok 0x6005 ∧ (after (stateAt 0xFFE 0x6005)).runState ≠ .running :=
  ⟨rfl, rfl, rfl, by decide, by decide, rfl, by decide⟩
theorem witness_StepAlwaysAnswersNext : haltedAt.runState = .halted ∧ State.reset.runState ≠ .halted := by decide
/-- Each case of R122 and R124, and the case of no fault. -/
theorem witness_StepFaultsExactlyAsListed :
    tickFaultOf (stateAt 0xFFF 0) = some (.outOfBounds 0x1000, 0) ∧
    tickFaultOf { stateAt 0x200 0x2300 with sp := Config.stackCapacity } = some (.stackOverflow, 0x2300) ∧
    tickFaultOf (stateAt 0x400 0x00EE) = some (.stackUnderflow, 0x00EE) ∧
    tickFaultOf { stateAt 0xFFE 0xF033 with i := 0x1005 } = some (.outOfBounds 0x1005, 0xF033) ∧
    tickFaultOf (stateAt 0xFFE 0xFFFF) = some (.outOfBounds 0x1000, 0xFFFF) ∧ tickFaultOf (stateAt 0xFFD 0xFFFF) = none := by
  refine ⟨by decide, ?_, by decide, by decide, by decide, by decide⟩
  exact congrArg (fun o : Option Fault => (o.or none).map fun f => (f, 0x2300#16)) (if_pos (Nat.le_refl _))
theorem witness_FaultsArePrecise : State.reset.runState ≠ .halted ∧ ∃ t, step State.reset = .next t := ⟨by decide, _, rfl⟩
/-- The reset state meets the invariant and steps. -/
theorem witness_StepKeepsInvariant : State.reset.Inv ∧ ∃ t, step State.reset = .next t :=
  ⟨⟨by decide, Nat.zero_le _, rfl, rfl, fun _ => Nat.zero_le _, fun _ => by decide, fun h => by cases h⟩, ⟨_, rfl⟩⟩
/-- A Halted state meets the invariant too. -/
theorem witness_Inv_halted : (faultEntry (.outOfBounds 0x1000) 0x3001 (stateAt 0xFFE 0x3001)).Inv :=
  ⟨by decide, Nat.zero_le _, rfl, rfl, fun _ => Nat.zero_le _, fun h => absurd rfl h, fun _ => by decide⟩
theorem witness_HostMovesKeepInvariant :
    (sessionOf State.reset).core.Inv ∧ ∃ h' r, sessionMove (sessionOf State.reset) (.load [0x22, 0x00]) = some (h', r) :=
  ⟨witness_StepKeepsInvariant.1, _, _, rfl⟩
theorem witness_CallPushesReturnAddress :
    (stateAt 0x200 0x2300).stack.wf = true ∧ (stateAt 0x200 0x2300).sp < Config.stackCapacity ∧
    State.sp { stateAt 0x200 0x2300 with sp := Config.stackCapacityExtra + 15 } < Config.stackCapacity ∧
    State.sp { stateAt 0x200 0x2300 with sp := Config.stackCapacity } = Config.stackCapacity :=
  ⟨rfl, by decide, Nat.lt_succ_self _, rfl⟩
theorem witness_ReturnPopsPc :
    let s : State := { stateAt 0x400 0x00EE with sp := 1, stack := [(0, 0x0FFF)] }
    let t : State := { stateAt 0x400 0x00EE with sp := 1, stack := [(0, 0x1000)] }
    (stateAt 0x400 0x00EE).sp = 0 ∧ (0 < s.sp ∧ (s.stack.read (s.sp - 1)).toNat < 4096) ∧
    (0 < t.sp ∧ 4096 ≤ (t.stack.read (t.sp - 1)).toNat) := by decide
theorem witness_CallThenReturn :
    let s := stateAt 0xFFD 0x2300
    s.stack.wf = true ∧ s.sp < Config.stackCapacity ∧ s.pc.toNat + 2 < 4096 ∧
    (after s).sp = (after s).sp ∧ (after s).stack.read s.sp = 0xFFF := ⟨rfl, by decide, by decide, rfl, by decide⟩
/-- The targets at the edge, for every statement made with `RunsTo`: `A + 2` and `A + 4` below and at 4096. -/
theorem witness_RunsTo : (stateAt 0xFFD 0x6001).pc.toNat + 2 < 4096 ∧ 4096 ≤ (stateAt 0xFFE 0x6001).pc.toNat + 2 ∧
    (stateAt 0xFFB 0x3000).pc.toNat + 4 < 4096 ∧ 4096 ≤ (stateAt 0xFFC 0x3000).pc.toNat + 4 := by decide
/-- Both branches of the skips. -/
theorem witness_Skips : (stateAt 0xFFB 0x3000).getV 0 = 0x00 ∧ (stateAt 0xFFB 0x3001).getV 0 ≠ 0x01 ∧
    (stateAt 0xFFB 0x5010).getV 0 = (stateAt 0xFFB 0x5010).getV 1 ∧
    (regs [(1, 1)] (stateAt 0xFFB 0x5010)).getV 0 ≠ (regs [(1, 1)] (stateAt 0xFFB 0x5010)).getV 1 := by decide
theorem witness_ParkedStateIsUnchanged : (stateAt 0xFFE 0x1FFE).runState = .running ∧ Parked (stateAt 0xFFE 0x1FFE) :=
  ⟨rfl, by decide, 0xFFE, rfl, by decide⟩
theorem witness_StoreBcdDigits :
    let s : State := { stateAt 0x200 0xF033 with i := 0xFFD }
    let t : State := { stateAt 0x200 0xF033 with i := 0xFFE }
    s.mem.wf = true ∧ dataBase s + 2 < 4096 ∧ t.mem.wf = true ∧ 4096 ≤ dataBase t + 2 := by decide
theorem witness_StoreRegsToMemory :
    let s : State := { stateAt 0x200 0xFF55 with i := 0xFF0 }
    let t : State := { stateAt 0x200 0xFF55 with i := 0xFF1 }
    s.mem.wf = true ∧ dataBase s + (0xF : Reg).toNat < 4096 ∧ t.mem.wf = true ∧ 4096 ≤ dataBase t + (0xF : Reg).toNat := by decide
theorem witness_LoadRegsFromMemory :
    (State.i { stateAt 0x200 0xFF65 with i := 0xFF0 }).toNat + (0xF : Reg).toNat < 4096 ∧
    4096 ≤ (State.i { stateAt 0x200 0xFF65 with i := 0xFF1 }).toNat + (0xF : Reg).toNat := by decide
theorem witness_StoreRegsThenLoadRegs :
    let s : State := { stateAt 0xFFB 0xFF55 with i := 0xFF0 }
    s.mem.wf = true ∧ s.i.toNat + (0xF : Reg).toNat < 4096 ∧ s.pc.toNat + 4 < 4096 := by decide
theorem witness_StoresAreSeenByFetch :
    let s : State := { stateAt 0xFFD 0xF155 with i := 0xFFE }
    s.mem.wf = true ∧ s.i.toNat + (1 : Reg).toNat < 4096 ∧ s.pc.toNat + 2 < 4096 ∧ (0 : Reg).toNat < (1 : Reg).toNat := by decide
theorem witness_XorPixelTogglesOneCell : 31 < 32 ∧ 63 < 64 ∧ ¬ (31 = 40 % 32 ∧ 63 = 70 % 64) := by decide
theorem witness_SpriteCellsAreDistinct : (List.replicate 15 (0xFF : Byte)).length ≤ 15 := by decide
/-- No rows; the last sprite byte at `0xFFF`; the first one past it. -/
theorem witness_DrawTogglesSpriteCells :
    ((0 : BitVec 4) = 0 ∨ (0xFFFF : Word).toNat + (0 : BitVec 4).toNat - 1 < 4096) ∧
    ((15 : BitVec 4) = 0 ∨ (0xFF1 : Word).toNat + (15 : BitVec 4).toNat - 1 < 4096) ∧
    ((15 : BitVec 4) ≠ 0 ∧ 4096 ≤ (0xFF2 : Word).toNat + (15 : BitVec 4).toNat - 1) := by decide
/-- A sprite of one set bit at bit 7: the cell under it, on (collision) and off, and a cell not under it. -/
theorem witness_UnderSprite :
    let s := bytes [(0x300, 0x80)] { stateAt 0x200 0xD011 with i := 0x300 }
    UnderSprite s 0 1 1 0 0 ∧ s.fb.cell 0 0 = false ∧ ¬ UnderSprite s 0 1 1 1 0 ∧
    UnderSprite (cells [(0, 0)] s) 0 1 1 0 0 ∧ (cells [(0, 0)] s).fb.cell 0 0 = true := by
  refine ⟨⟨0, 0, by decide⟩, by decide, ?_, ⟨0, 0, by decide⟩, by decide⟩
  rintro ⟨r, c, hr, _, _, h, _⟩
  have : r = 0 := by have : r < 1 := hr; omega
  subst this
  revert h
  decide
theorem witness_DrawTwiceRestores :
    ((15 : BitVec 4) = 0 ∨ (0xFF1 : Word).toNat + (15 : BitVec 4).toNat - 1 < 4096) ∧ (stateAt 0xFFD 0xD01F).pc.toNat + 2 < 4096 := by
  decide
theorem witness_RegistersWrittenAsListed :
    writesReg (.addReg 0 1) 2 = false ∧ ∃ t, exec (.addReg 0 1) (stateAt 0x200 0x8014) = .next t := ⟨by decide, _, rfl⟩
theorem witness_MemoryWrittenAsListed :
    let s : State := { stateAt 0x200 0xF033 with i := 0x300 }
    s.mem.wf = true ∧ (0x2FF < dataBase s) ∧ (dataBase s + storeWidth (.storeBcd 0) ≤ 0x303) ∧
    ∃ t, exec (.storeBcd 0) s = .next t := ⟨by decide, by decide, by decide, _, rfl⟩
/-- No clause of SpecialStateWriters is empty: one instruction meets the premises of all three. -/
theorem witness_SpecialStateWriters :
    (∀ nnn, Instr.loadImm 0 5 ≠ .loadI nnn) ∧ (∀ x, Instr.loadImm 0 5 ≠ .addI x) ∧ (∀ nnn, Instr.loadImm 0 5 ≠ .call nnn) ∧
    Instr.loadImm 0 5 ≠ .ret ∧ Instr.loadImm 0 5 ≠ .clear ∧ (∀ x y n, Instr.loadImm 0 5 ≠ .draw x y n) ∧
    ∃ t, exec (.loadImm 0 5) (stateAt 0x200 0x6005) = .next t :=
  ⟨fun _ h => (nomatch h), fun _ h => (nomatch h), fun _ h => (nomatch h), fun h => (nomatch h), fun h => (nomatch h),
    fun _ _ _ h => (nomatch h), _, rfl⟩
theorem witness_TimersDoNotInfluenceSteps : ∃ t, step State.reset = .next t := ⟨_, rfl⟩
/-- The largest image that fits, the smallest that does not, a core not Idle, and a second load. -/
theorem witness_LoadContract (b : Byte) :
    (sessionOf State.reset).core.mem.wf = true ∧ (sessionOf State.reset).core.runState = .idle ∧
    (sessionOf State.reset).loaded = false ∧ 0x200 + (List.replicate 3584 b).length ≤ 4096 ∧
    4096 < 0x200 + (List.replicate 3585 b).length ∧ (sessionOf haltedAt).core.runState ≠ .idle :=
  ⟨rfl, rfl, rfl, by rw [List.length_replicate], by rw [List.length_replicate]; decide, by decide⟩
theorem witness_NoTickAfterLoadError (b : Byte) :
    ∃ h', sessionMove (sessionOf State.reset) (.load (List.replicate 3585 b)) = some (h', .loadError) :=
  ⟨{ sessionOf State.reset with loaded := true, loadFailed := true }, by
    simp only [sessionMove, sessionLoad]
    rw [show (sessionOf State.reset).core = State.reset from rfl, test_load_too_long]
    rfl⟩
theorem witness_HostLeavesProgramState :
    (∃ h' r, sessionMove (sessionOf State.reset) .timerDecrement = some (h', r)) ∧
    (∀ v, HostMove.timerDecrement ≠ .reset v) ∧ HostMove.timerDecrement ≠ .tick :=
  ⟨⟨_, _, rfl⟩, fun _ h => (nomatch h), fun h => (nomatch h)⟩
theorem witness_OnlyResetLeavesHalted :
    (sessionOf haltedAt).core.runState = .halted ∧ (∃ h' r, sessionMove (sessionOf haltedAt) .tick = some (h', r)) ∧
    ∀ v, HostMove.tick ≠ .reset v := ⟨rfl, ⟨_, _, rfl⟩, fun _ h => (nomatch h)⟩

end Sys2Proof.Tests
end

section
/-!
SUPPORT. What an instruction's effect writes, said once by the kind of its write (`EffectShape`), which faults an
effect raises, and when a fetch answers. The frame and invariant proofs cite these and split on the shape.
-/

namespace Sys2Proof.Machine

/-! ### Fetch -/

theorem fetch_ok_bound {s : State} {w : Opcode} (h : fetch s = .ok w) : s.pc.toNat + 1 < 4096 := by
  by_contra hge
  rw [fetch, fetchWord_error _ (by omega)] at h
  cases h

theorem fetch_error_cases {s : State} {f : Fault} (h : fetch s = .error f) :
    4096 ≤ s.pc.toNat + 1 ∧ f = .outOfBounds (s.pc.toNat + 1) := by
  by_cases hlt : s.pc.toNat + 1 < 4096
  · rw [fetch, fetchWord_ok _ hlt] at h
    cases h
  · rw [fetch, fetchWord_error _ (by omega)] at h
    cases h
    exact ⟨by omega, rfl⟩

/-! ### Inversions of the shared operations -/

theorem map_error_cases {α β : Type} {e : Except Fault α} {f : α → β} {x : Fault} (h : e.map f = .error x) :
    e = .error x := by
  cases e with
  | error _ => cases h; rfl
  | ok _ => cases h

theorem push_error_cases {s : State} {a : Word} {f : Fault} (h : push s a = .error f) : f = .stackOverflow := by
  by_cases hlt : s.sp < Config.stackCapacity
  · rw [push_ok s a hlt] at h
    cases h
  · rw [push_error s a hlt] at h
    cases h
    rfl

theorem pop_error_cases {s : State} {f : Fault} (h : pop s = .error f) : f = .stackUnderflow := by
  by_cases h0 : s.sp = 0
  · rw [pop_error s h0] at h
    cases h
    rfl
  · rw [pop_ok s h0] at h
    cases h

theorem readSpan_error_cases {m : Memory} {base n : Nat} {f : Fault} (h : readSpan m base n = .error f) :
    f = .outOfBounds (max base 4096) := by
  rcases readSpan_cases m base n with ⟨he, _⟩ | ⟨_, he, _⟩ <;> rw [he] at h <;> cases h
  rfl

theorem writeSpan_error_cases {m : Memory} {base : Nat} {bs : List Byte} {f : Fault} (h0 : bs.length ≠ 0)
    (h : writeSpan m base bs = .error f) : f = .outOfBounds (max base 4096) := by
  rcases writeSpan_cases m base bs h0 with ⟨he, _⟩ | ⟨_, he, _⟩ <;> rw [he] at h <;> cases h
  rfl

/-- A data read answers as many bytes as it was asked for. -/
theorem readSpan_length {m : Memory} {base n : Nat} {bs : List Byte} (h : readSpan m base n = .ok bs) :
    bs.length = n := by
  rcases readSpan_cases m base n with ⟨he, _⟩ | ⟨_, _, rfl | hle⟩
  · rw [he] at h
    cases h
  · rw [readSpan_zero] at h
    cases h
    rfl
  · rw [readSpan_ok m hle] at h
    cases h
    simp

/-! ### The shape of an effect -/

/-- The states an instruction's effect can answer from `s`, by which elements it writes (10_state.md R21, R30, R34,
R39, R41): a register write says which registers it spares, a store says its span. -/
inductive EffectShape (s : State) : Instr → State → Prop
  | registers {i : Instr} (v : Vector Byte 16)
      (spared : ∀ r, writesReg i r = false → State.getV { s with v := v } r = s.getV r) :
      EffectShape s i { s with v := v }
  | loadI (nnn : BitVec 12) : EffectShape s (.loadI nnn) { s with i := indexImmediate nnn }
  | addI (x : Reg) : EffectShape s (.addI x) { s with i := s.i + (s.getV x).setWidth 16 }
  | clear : EffectShape s .clear { s with fb := clearedFramebuffer }
  | draw (x y : Reg) (n : BitVec 4) (rows : List Byte) : EffectShape s (.draw x y n) (drawSprite x y s rows)
  | pop (nonempty : s.sp ≠ 0) : EffectShape s .ret { s with sp := s.sp - 1 }
  | push (nnn : BitVec 12) (room : s.sp < Config.stackCapacity) : EffectShape s (.call nnn)
      { s with stack := s.stack.write s.sp (BitVec.ofNat 16 (followingAddress s)), sp := s.sp + 1 }
  | store {i : Instr} {m : Memory} (bs : List Byte) (width : bs.length = storeWidth i)
      (written : writeSpan s.mem (dataBase s) bs = .ok m) : EffectShape s i { s with mem := m }

/-- An instruction that only jumps writes no register. -/
theorem EffectShape.unchanged (s : State) (i : Instr) : EffectShape s i s := .registers s.v fun _ _ => rfl

theorem EffectShape.setV {s : State} {i : Instr} {x : Reg} (b : Byte) (h : ∀ r, writesReg i r = false → r ≠ x) :
    EffectShape s i (s.setV x b) :=
  .registers _ fun r hr => getV_setV_ne s x b (h r hr)

theorem EffectShape.setFlagThenV {s : State} {i : Instr} {x : Reg} (g b : Byte)
    (h : ∀ r, writesReg i r = (r == x || r == 0xF#4)) : EffectShape s i (s.setFlagThenV g x b) :=
  .registers _ fun r hr => by
    rw [h, Bool.or_eq_false_iff, beq_eq_false_iff_ne, beq_eq_false_iff_ne] at hr
    exact (getV_setFlagThenV s x b g r).trans (by rw [if_neg hr.1, if_neg hr.2])

theorem EffectShape.writeRegsFrom {s : State} {x : Reg} {bs : List Byte} (h : bs.length = regCount x) :
    EffectShape s (.loadRegs x) { s with v := writeRegsFrom s.v 0 bs } :=
  .registers _ fun r hr => by
    have hx : ¬ r.toNat ≤ x.toNat := of_decide_eq_false hr
    rw [getV_writeRegsFrom, if_neg (by rw [h, regCount_eq]; omega)]

/-- Every effect that raises nothing has its instruction's shape. -/
theorem effectOf_shape {i : Instr} {s u : State} (h : effectOf i s = .ok u) : EffectShape s i u := by
  cases i
  case clear => cases h; exact .clear
  case loadI nnn => cases h; exact .loadI nnn
  case addI x => cases h; exact .addI x
  case ret =>
    obtain ⟨r, hr, rfl⟩ := map_ok_cases h
    obtain ⟨h0, rfl⟩ := pop_cases hr
    exact .pop h0
  case call nnn =>
    obtain ⟨hroom, rfl⟩ := push_cases h
    exact .push nnn hroom
  case draw x y n =>
    obtain ⟨rows, _, rfl⟩ := map_ok_cases h
    exact .draw x y n rows
  case storeBcd x =>
    obtain ⟨m, hm, rfl⟩ := map_ok_cases h
    exact .store _ (bcdDigits_length _) hm
  case storeRegs x =>
    obtain ⟨m, hm, rfl⟩ := map_ok_cases h
    exact .store _ (regsUpTo_length s x) hm
  case loadRegs x =>
    obtain ⟨bs, hbs, rfl⟩ := map_ok_cases h
    exact .writeRegsFrom (readSpan_length hbs)
  case jump | skipEqImm | skipNeqImm | skipEqReg | skipNeqReg => cases h; exact .unchanged s _
  case loadImm | addImm | loadReg | orReg | andReg | xorReg =>
    cases h
    exact .setV _ fun r hr => beq_eq_false_iff_ne.mp hr
  case addReg | subReg | shiftRight | subnReg | shiftLeft => cases h; exact .setFlagThenV _ _ fun _ => rfl

/-- The faults an effect raises: a full or empty call stack, or the first data address out of range (60_exceptions.md
R122). -/
theorem effectOf_error_cases {i : Instr} {s : State} {f : Fault} (h : effectOf i s = .error f) :
    f = .stackOverflow ∨ f = .stackUnderflow ∨ f = .outOfBounds (max s.i.toNat 4096) := by
  cases i
  case call => exact .inl (push_error_cases h)
  case ret => exact .inr (.inl (pop_error_cases (map_error_cases h)))
  case draw | loadRegs => exact .inr (.inr (readSpan_error_cases (map_error_cases h)))
  case storeBcd | storeRegs => exact .inr (.inr (writeSpan_error_cases (by simp) (map_error_cases h)))
  all_goals cases h

/-- Everything an instruction can do, with the fault it takes and the shape of what it commits. -/
theorem exec_shape {i : Instr} {s t : State} (h : exec i s = .next t) :
    (∃ f, t = faultEntry f (encode i) s ∧
      (effectOf i s = .error f ∨ 4096 ≤ nextPcOf i s ∧ f = .outOfBounds (nextPcOf i s))) ∨
    (∃ u, EffectShape s i u ∧ nextPcOf i s < 4096 ∧
      t = { u with pc := BitVec.ofNat 16 (nextPcOf i s), runState := .running }) := by
  rw [exec_eq_retire] at h
  rcases retire_cases i s (nextPcOf i s) (effectOf i s) with ⟨f, he, h'⟩ | ⟨u, _, hge, h'⟩ | ⟨u, he, hlt, h'⟩ <;>
    rw [h'] at h <;> cases h
  · exact .inl ⟨f, rfl, .inl he⟩
  · exact .inl ⟨_, rfl, .inr ⟨hge, rfl⟩⟩
  · exact .inr ⟨u, effectOf_shape he, hlt, rfl⟩

/-- Every instruction answers a next state. -/
theorem exec_next (i : Instr) (s : State) : ∃ t, exec i s = .next t := by
  rw [exec_eq_retire]
  rcases retire_cases i s (nextPcOf i s) (effectOf i s) with ⟨_, _, h⟩ | ⟨_, _, _, h⟩ | ⟨_, _, _, h⟩ <;> exact ⟨_, h⟩

/-- Every step answers a next state. -/
theorem step_next (s : State) : ∃ t, step s = .next t := by
  by_cases hr : s.runState = .halted
  · exact ⟨s, step_halted s hr⟩
  · rcases step_cases s hr with ⟨_, _, h⟩ | ⟨_, i, _, _, h⟩ | ⟨w, _, _, _, h⟩
    · exact ⟨_, h⟩
    · exact h ▸ exec_next i s
    · rcases execUnrecognized_cases w s with ⟨_, hu⟩ | ⟨_, hu⟩ <;> exact ⟨_, h.trans hu⟩

/-! ### What no effect writes -/

namespace EffectShape

variable {s u : State} {i : Instr}

/-- No effect writes `PC` or `RUN_STATE`; both are the commit's. -/
theorem control (h : EffectShape s i u) : u.pc = s.pc ∧ u.runState = s.runState := by
  cases h <;> exact ⟨rfl, rfl⟩

theorem record (h : EffectShape s i u) : SameRecord s u := by
  cases h <;> exact ⟨rfl, rfl, rfl, rfl⟩

theorem timers (h : EffectShape s i u) : SameTimers s u := by
  cases h <;> exact ⟨rfl, rfl⟩

theorem getV_eq (h : EffectShape s i u) {r : Reg} (hr : writesReg i r = false) : u.getV r = s.getV r := by
  cases h with
  | registers v spared => exact spared r hr
  | draw x y n rows => exact getV_setV_ne _ _ _ (beq_eq_false_iff_ne.mp hr)
  | _ => rfl

theorem i_eq (h : EffectShape s i u) (h1 : ∀ nnn, i ≠ .loadI nnn) (h2 : ∀ x, i ≠ .addI x) : u.i = s.i := by
  cases h with
  | loadI nnn => exact absurd rfl (h1 nnn)
  | addI x => exact absurd rfl (h2 x)
  | _ => rfl

theorem stack_eq (h : EffectShape s i u) (h1 : ∀ nnn, i ≠ .call nnn) (h2 : i ≠ .ret) :
    u.sp = s.sp ∧ u.stack = s.stack := by
  cases h with
  | push nnn => exact absurd rfl (h1 nnn)
  | pop => exact absurd rfl h2
  | _ => exact ⟨rfl, rfl⟩

theorem fb_eq (h : EffectShape s i u) (h1 : i ≠ .clear) (h2 : ∀ x y n, i ≠ .draw x y n) : u.fb = s.fb := by
  cases h with
  | clear => exact absurd rfl h1
  | draw x y n => exact absurd rfl (h2 x y n)
  | _ => rfl

end EffectShape

end Sys2Proof.Machine
end

section
/-!
PROOFS. The invariant: after reset, after a fault taken, after an instruction, after a step.
-/

namespace Sys2Proof.Machine

theorem resetWith_inv (v : Vector Byte 16) : (State.resetWith v).Inv where
  pc := show 0x200 < 4096 by decide
  sp := Nat.zero_le _
  mem := resetWith_mem_wf v
  stack := resetWith_stack_wf v
  returns k := by simp [State.resetWith]
  record _ := ⟨rfl, rfl, rfl, rfl⟩
  halted h := nomatch h

variable {s : State}

/-! ### Updates that keep the invariant -/

/-- `V`, `I` and the framebuffer are free. -/
theorem State.Inv.withViewed (h : s.Inv) (v : Vector Byte 16) (j : Word) (fb : Framebuffer) :
    State.Inv { s with v := v, i := j, fb := fb } :=
  ⟨h.pc, h.sp, h.mem, h.stack, h.returns, h.record, h.halted⟩

theorem State.Inv.withMem (h : s.Inv) {m : Memory} (hm : m.wf = true) : State.Inv { s with mem := m } :=
  ⟨h.pc, h.sp, hm, h.stack, h.returns, h.record, h.halted⟩

/-- A pop leaves every entry as it was (R36). -/
theorem State.Inv.popped (h : s.Inv) : State.Inv { s with sp := s.sp - 1 } :=
  ⟨h.pc, (Nat.sub_le _ _).trans h.sp, h.mem, h.stack, h.returns, h.record, h.halted⟩

/-- A push within capacity of a return address. -/
theorem State.Inv.pushed (h : s.Inv) (room : s.sp < Config.stackCapacity) {a : Word} (ha : a.toNat ≤ 4096) :
    State.Inv { s with stack := s.stack.write s.sp a, sp := s.sp + 1 } where
  pc := h.pc
  sp := room
  mem := h.mem
  stack := CallStack.write_wf h.stack a room
  returns k := by
    rw [CallStack.read_write h.stack]
    split
    · exact ha
    · exact h.returns k
  record := h.record
  halted := h.halted

/-- Committing at a target within memory, in a core that is not Halted (10_state.md R24, R33). -/
theorem State.Inv.committed (h : s.Inv) (hr : s.runState ≠ .halted) {target : Nat} (ht : target < 4096) :
    State.Inv { s with pc := BitVec.ofNat 16 target, runState := .running } where
  pc := by rwa [ofNat_toNat_of_lt ht]
  sp := h.sp
  mem := h.mem
  stack := h.stack
  returns := h.returns
  record _ := h.record hr
  halted hh := nomatch hh

/-! ### Taking a fault -/

/-- A fault whose record meets the invariant: an address out of range is at least 4096 and at most `0x1000E`
(10_state.md R31, 60_exceptions.md R121). -/
def Fault.Legal : Fault → Prop
  | .outOfBounds a => 4096 ≤ a ∧ a ≤ 0x1000E
  | .stackOverflow | .stackUnderflow => True

theorem legal_outOfBounds {a : Nat} (hlo : 4096 ≤ a) (hhi : a ≤ 0x1000E) : (Fault.outOfBounds a).Legal := ⟨hlo, hhi⟩

/-- Only the executor status is written (R125), and it holds the fault's record. -/
theorem faultEntry_inv (h : s.Inv) {f : Fault} (hf : f.Legal) (w : Opcode) : (faultEntry f w s).Inv where
  pc := h.pc
  sp := h.sp
  mem := h.mem
  stack := h.stack
  returns := h.returns
  record hr := absurd rfl hr
  halted _ := by
    cases f with
    | outOfBounds a =>
      obtain ⟨hlo, hhi⟩ := hf
      simp [faultCodeOf, faultAddr_outOfBounds (show a < 131072 by omega), hlo, hhi]
    | stackOverflow => simp [faultCodeOf, faultAddrOf]
    | stackUnderflow => simp [faultCodeOf, faultAddrOf]

/-- No next `PC` exceeds `0x1003`: a popped return address is at most `0x1000` and a skip adds 4. -/
theorem nextPcOf_le (h : s.Inv) (i : Instr) : nextPcOf i s ≤ 0x1003 := by
  have hpc := h.pc
  cases i
  case ret => exact (h.returns _).trans (by decide)
  case jump nnn | call nnn =>
    have := nnn.isLt
    simp only [nextPcOf]
    omega
  case skipEqImm | skipNeqImm | skipEqReg | skipNeqReg =>
    simp only [nextPcOf]
    split <;> omega
  all_goals
    simp only [nextPcOf]
    omega

/-- The faults an instruction takes are legal: `I` has 16 bits, and the next `PC` is bounded by `nextPcOf_le`. -/
theorem exec_fault_legal (h : s.Inv) {i : Instr} {f : Fault}
    (hf : effectOf i s = .error f ∨ 4096 ≤ nextPcOf i s ∧ f = .outOfBounds (nextPcOf i s)) : f.Legal := by
  rcases hf with he | ⟨hge, rfl⟩
  · rcases effectOf_error_cases he with rfl | rfl | rfl
    · trivial
    · trivial
    · have := s.i.isLt
      exact legal_outOfBounds (le_max_right _ _) (max_le (by omega) (by decide))
  · exact legal_outOfBounds hge ((nextPcOf_le h i).trans (by decide))

/-! ### Instructions and steps -/

/-- The effect of an instruction that was fetched keeps the invariant: `A + 1` is below 4096, so the address CALL pushes
is at most `0x1000` (40_control_flow.md R88). -/
theorem EffectShape.inv {i : Instr} {u : State} (hs : EffectShape s i u) (h : s.Inv) (hp : s.pc.toNat + 1 < 4096) :
    u.Inv := by
  cases hs with
  | registers v => exact h.withViewed v s.i s.fb
  | loadI nnn => exact h.withViewed s.v _ s.fb
  | addI x => exact h.withViewed s.v _ s.fb
  | clear => exact h.withViewed s.v s.i _
  | draw x y n rows => exact h.withViewed _ s.i _
  | pop => exact h.popped
  | push nnn room => exact h.pushed room (by simp; omega)
  | store bs _ written => exact h.withMem (writeSpan_wf h.mem written)

theorem exec_inv (h : s.Inv) (hr : s.runState ≠ .halted) (hp : s.pc.toNat + 1 < 4096) {i : Instr} {t : State}
    (ht : exec i s = .next t) : t.Inv := by
  rcases exec_shape ht with ⟨f, rfl, hf⟩ | ⟨u, hs, hlt, rfl⟩
  · exact faultEntry_inv h (exec_fault_legal h hf) _
  · obtain ⟨-, hrun⟩ := hs.control
    exact (hs.inv h hp).committed (hrun ▸ hr) hlt

theorem execUnrecognized_inv (h : s.Inv) (hr : s.runState ≠ .halted) {w : Opcode} {t : State}
    (ht : execUnrecognized w s = .next t) : t.Inv := by
  have hpc := h.pc
  rcases execUnrecognized_cases w s with ⟨hlt, he⟩ | ⟨hge, he⟩ <;> rw [he] at ht <;> cases ht
  · exact h.committed hr hlt
  · exact faultEntry_inv h (legal_outOfBounds hge (by omega)) w

theorem fetch_error_inv (h : s.Inv) {f : Fault} (hf : fetch s = .error f) (w : Opcode) : (faultEntry f w s).Inv := by
  have hpc := h.pc
  obtain ⟨hge, rfl⟩ := fetch_error_cases hf
  exact faultEntry_inv h (legal_outOfBounds hge (by omega)) w

theorem step_inv (h : s.Inv) {t : State} (ht : step s = .next t) : t.Inv := by
  by_cases hr : s.runState = .halted
  · rw [step_halted s hr] at ht
    cases ht
    exact h
  · rcases step_cases s hr with ⟨f, hf, he⟩ | ⟨w, i, hf, _, he⟩ | ⟨w, g, _, _, he⟩ <;> rw [he] at ht
    · cases ht
      exact fetch_error_inv h hf _
    · exact exec_inv h hr (fetch_ok_bound hf) ht
    · exact execUnrecognized_inv h hr ht

/-- Settles O23: a step is a halted tick, a fetch fault, an instruction or an unrecognized word, and each keeps the
invariant. -/
theorem stepKeepsInvariant : Obligations.StepKeepsInvariant := fun _ _ h ht => step_inv h ht

/-- Settles O22: every element of the reset state is literal but the draw, which the invariant leaves free. -/
theorem resetMeetsInvariant : Obligations.ResetMeetsInvariant := resetWith_inv

end Sys2Proof.Machine
end

section
/-!
PROOFS. Which instruction writes what: an instruction that faults writes only the executor status, and one that commits
has the shape of its effect.
-/

namespace Sys2Proof.Machine

/-- Settles O49, from the registers its effect spares. -/
theorem registersWrittenAsListed : Obligations.RegistersWrittenAsListed := by
  intro i s t r ht hr
  rcases exec_shape ht with ⟨f, rfl, _⟩ | ⟨u, hs, _, rfl⟩
  · exact getV_faultEntry s r f _
  · exact hs.getV_eq hr

/-- Settles O51, from the shape of every effect. -/
theorem specialStateWriters : Obligations.SpecialStateWriters := by
  intro i s t ht
  rcases exec_shape ht with ⟨f, rfl, _⟩ | ⟨u, hs, _, rfl⟩
  · exact ⟨fun _ _ => rfl, fun _ _ => ⟨rfl, rfl⟩, fun _ _ => rfl, rfl, rfl⟩
  · exact ⟨hs.i_eq, hs.stack_eq, hs.fb_eq, hs.timers⟩

end Sys2Proof.Machine
end

section
/-!
PROOFS. What a tick puts on the `report` and `trace` ports (10_state.md R45, R46).
-/

namespace Sys2Proof.Machine

/-! ### When a tick ends in Running -/

theorem faultEntry_not_running (f : Fault) (w : Opcode) (s : State) : (faultEntry f w s).runState ≠ .running := by simp

/-- An unrecognized word ends the tick in Running exactly when `A + 2` is within memory (44_unrecognized.md R119). -/
theorem execUnrecognized_running_iff (w : Opcode) (s : State) :
    (∃ t, execUnrecognized w s = .next t ∧ t.runState = .running) ↔ s.pc.toNat + 2 < 4096 := by
  rcases execUnrecognized_cases w s with ⟨hlt, he⟩ | ⟨hge, he⟩
  · exact iff_of_true ⟨_, he, rfl⟩ hlt
  · refine iff_of_false ?_ (by omega)
    rintro ⟨t, ht, hrun⟩
    rw [he] at ht
    cases ht
    exact faultEntry_not_running _ _ _ hrun

theorem completes_halted {s : State} (hr : s.runState = .halted) : completes s = false := by simp [completes, hr]

theorem completes_next {s t : State} (hr : s.runState ≠ .halted) (ht : step s = .next t) :
    completes s = decide (t.runState = .running) := by
  cases h : s.runState
  case halted => exact absurd h hr
  all_goals simp [completes, h, ht]

/-! ### `report` -/

theorem report_halted {s : State} (hr : s.runState = .halted) : report s = .none := by simp [report, hr]

theorem report_fetch_error {s : State} {f : Fault} (hf : fetch s = .error f) : report s = .none := by
  cases h : s.runState <;> simp [report, h, hf]

theorem report_instr {s : State} {w : Opcode} {i : Instr} (hf : fetch s = .ok w) (hd : decode w = .instr i) :
    report s = .none := by
  cases h : s.runState <;> simp [report, h, hf, hd]

/-- An unrecognized word is reported unless its next `PC` faults. -/
theorem report_unrecognized {s : State} {w : Opcode} {g : UnrecognizedGroup} (hr : s.runState ≠ .halted)
    (hf : fetch s = .ok w) (hd : decode w = .unrecognized g) :
    report s = if s.pc.toNat + 2 < 4096 then .unknownOpcode s.pc w else .none := by
  cases h : s.runState
  case halted => exact absurd h hr
  all_goals
    split
    · next hlt => simp [report, h, hf, hd, nextPc_ok hlt]
    · next hge => simp [report, h, hf, hd, nextPc_error (Nat.le_of_not_lt hge)]

/-- Settles O16: only a tick that runs an unrecognized word reports, and it does so exactly when `A + 2` is in range. -/
theorem reportExactlyUnrecognized : Obligations.ReportExactlyUnrecognized := by
  intro s p w
  by_cases hr : s.runState = .halted
  · simp [report_halted hr, hr]
  rcases step_cases s hr with ⟨f, hf, _⟩ | ⟨v, i, hf, hd, _⟩ | ⟨v, g, hf, hd, he⟩
  · simp [report_fetch_error hf, hf]
  · rw [report_instr hf hd]
    refine iff_of_false nofun ?_
    rintro ⟨_, _, hw, ⟨g, hg⟩, _⟩
    cases hf.symm.trans hw
    cases hd.symm.trans hg
  · rw [report_unrecognized hr hf hd, he, hf]
    constructor
    · intro h
      split at h
      · next hlt =>
        cases h
        exact ⟨hr, rfl, rfl, ⟨g, hd⟩, (execUnrecognized_running_iff w s).mpr hlt⟩
      · cases h
    · rintro ⟨_, rfl, hw, _, hrun⟩
      cases hw
      rw [if_pos ((execUnrecognized_running_iff w s).mp hrun)]

/-! ### `trace` -/

theorem trace_fetch_ok {s : State} {w : Opcode} (hf : fetch s = .ok w) :
    trace s = if completes s then some (traceRecordOf s.pc w) else none := by
  simp [trace, hf]

theorem traceRecordOf_instr (pc : Word) {w : Opcode} {i : Instr} (h : decode w = .instr i) :
    traceRecordOf pc w = ⟨mnemonicOf i, operandsOf i, w, pc⟩ := by
  simp [traceRecordOf, h]

theorem traceRecordOf_unrecognized (pc : Word) {w : Opcode} {g : UnrecognizedGroup} (h : decode w = .unrecognized g) :
    traceRecordOf pc w = ⟨"UNKNOWN", [], w, pc⟩ := by
  simp [traceRecordOf, h]

theorem traceRecordOf_source (pc : Word) (w : Opcode) :
    (traceRecordOf pc w).opcode = w ∧ (traceRecordOf pc w).pc = pc := by
  cases h : decode w with
  | instr i => rw [traceRecordOf_instr pc h]; exact ⟨rfl, rfl⟩
  | unrecognized g => rw [traceRecordOf_unrecognized pc h]; exact ⟨rfl, rfl⟩

/-- Settles O17: the trace follows `completes`, and the record the decoded word. -/
theorem traceOfCompletedTick : Obligations.TraceOfCompletedTick := by
  intro s w hf
  rw [trace_fetch_ok hf]
  refine ⟨fun hr => by simp [completes_halted hr], fun hr => ?_⟩
  obtain ⟨t, ht⟩ := step_next s
  obtain ⟨hop, hpc⟩ := traceRecordOf_source s.pc w
  rw [completes_next hr ht]
  refine ⟨t, ht, fun hn => by simp [hn], fun hrun => ⟨traceRecordOf s.pc w, by simp [hrun], hop, hpc, ?_, ?_⟩⟩
  · intro i hi
    rw [traceRecordOf_instr s.pc hi]
    exact ⟨rfl, rfl⟩
  · intro g hg
    rw [traceRecordOf_unrecognized s.pc hg]

end Sys2Proof.Machine
end

section
/-!
PROOFS. The host's moves and the status port (10_state.md R31, R44; 70_reset_and_hazards.md R151).
-/

namespace Sys2Proof.Machine

/-- A load writes memory and nothing else of the core, whether it fits or not (20_memory.md R62). -/
theorem sessionLoad_core {bytes : List Byte} {h h' : Session} {r : HostReply}
    (hl : sessionLoad bytes h = some (h', r)) : ∃ m, h'.core = { h.core with mem := m } := by
  unfold sessionLoad at hl
  split at hl
  · by_cases hfit : 0x200 + bytes.length ≤ 4096
    · rw [load_ok bytes h.core hfit] at hl
      cases hl
      exact ⟨_, rfl⟩
    · rw [load_error bytes h.core (by omega)] at hl
      cases hl
      exact ⟨h.core.mem, rfl⟩
  · cases hl

/-- A timer write touches the timers only (60_exceptions.md R134). -/
theorem timerWrite_eq (t : Timer) (b : Byte) (s : State) :
    ∃ dt st, timerWrite t b s = { s with dt := dt, st := st } := by
  cases t with
  | dt => exact ⟨b, s.st, rfl⟩
  | st => exact ⟨s.dt, b, rfl⟩

/-- Every move of the host but `reset` and `tick` writes at most memory and the timers. -/
theorem sessionMove_core {h h' : Session} {m : HostMove} {r : HostReply} (hm : sessionMove h m = some (h', r))
    (hreset : ∀ v, m ≠ .reset v) (htick : m ≠ .tick) :
    ∃ mem dt st, h'.core = { h.core with mem := mem, dt := dt, st := st } := by
  cases m with
  | reset v => exact absurd rfl (hreset v)
  | tick => exact absurd rfl htick
  | load bytes =>
    obtain ⟨mem, hmem⟩ := sessionLoad_core hm
    exact ⟨mem, _, _, hmem⟩
  | timerWrite t b =>
    cases hm
    obtain ⟨dt, st, he⟩ := timerWrite_eq t b h.core
    exact ⟨_, dt, st, he⟩
  | timerDecrement => cases hm; exact ⟨_, _, _, rfl⟩
  | timerRead _ | fbSnapshot | status => cases hm; exact ⟨_, _, _, rfl⟩

/-- A tick in Halted leaves the core as it was (R127). -/
theorem sessionTick_halted {h h' : Session} {r : HostReply} (hr : h.core.runState = .halted)
    (ht : sessionTick h = some (h', r)) : h'.core = h.core := by
  unfold sessionTick at ht
  rw [step_halted h.core hr] at ht
  split at ht <;> cases ht
  rfl

/-- Settles O57: every other move writes at most memory and the timers. -/
theorem hostLeavesProgramState : Obligations.HostLeavesProgramState := by
  intro h h' m r hm hreset htick
  obtain ⟨mem, dt, st, he⟩ := sessionMove_core hm hreset htick
  rw [he]
  exact ⟨rfl, rfl, rfl, rfl, rfl, rfl, rfl, rfl, rfl, rfl, rfl⟩

/-- Settles O58: a tick in Halted changes nothing, and every move but `reset` leaves the status alone. -/
theorem onlyResetLeavesHalted : Obligations.OnlyResetLeavesHalted := by
  intro h h' m r hr hm hreset
  by_cases htick : m = .tick
  · subst htick
    rw [sessionTick_halted hr hm]
    exact ⟨hr, rfl, rfl, rfl, rfl⟩
  · obtain ⟨mem, dt, st, he⟩ := sessionMove_core hm hreset htick
    rw [he]
    exact ⟨hr, rfl, rfl, rfl, rfl⟩

theorem runStateCode_inj {a b : RunState} : runStateCode a = runStateCode b ↔ a = b := by
  cases a <;> cases b <;> decide

theorem faultCodeBits_inj {a b : FaultCode} : faultCodeBits a = faultCodeBits b ↔ a = b := by
  cases a <;> cases b <;> decide

/-- The code 3 is never shown (R31). -/
theorem runStateCode_ne_three (a : RunState) : runStateCode a ≠ 3 := by cases a <;> decide

theorem faultCodeBits_le_three (a : FaultCode) : (faultCodeBits a).toNat ≤ 3 := by cases a <;> decide

/-- Settles O59: each code names one value, and the codes of the port are those of the state. -/
theorem statusCodes : Obligations.StatusCodes := fun s =>
  ⟨(runStateCode_inj (b := .idle)).symm, (runStateCode_inj (b := .running)).symm,
    (runStateCode_inj (b := .halted)).symm, runStateCode_ne_three s.runState,
    (faultCodeBits_inj (b := .none)).symm, (faultCodeBits_inj (b := .outOfBounds)).symm,
    (faultCodeBits_inj (b := .stackOverflow)).symm, (faultCodeBits_inj (b := .stackUnderflow)).symm,
    faultCodeBits_le_three s.faultCode⟩

end Sys2Proof.Machine
end

section
/-!
PROOFS. Memory (20_memory.md): the checked byte primitives and fetch (R48, R60), what stores change and how fetch sees
them (R51, R68), the program load (R62), and the invariant over the host's moves (R65).
-/

namespace Sys2Proof.Machine

/-! ### Byte primitives and fetch -/

theorem memRead_error {m : Memory} {a : Nat} (h : 4096 ≤ a) : memRead m a = .error (.outOfBounds a) := if_pos h

theorem memWrite_error {m : Memory} {a : Nat} (b : Byte) (h : 4096 ≤ a) : memWrite m a b = .error (.outOfBounds a) :=
  if_pos h

/-- Settles O10: each primitive checks its address first, and a checked write is `Memory.write`. -/
theorem bytePrimitivesCheckAddress : Obligations.BytePrimitivesCheckAddress := by
  intro m a b hm
  refine ⟨fun h => ⟨memRead_error h, memWrite_error b h⟩, fun h => ⟨memRead_ok h, m.write a b, memWrite_ok b h, ?_, ?_⟩⟩
  · rw [Memory.read_write hm, if_pos rfl]
  · intro c hc
    rw [Memory.read_write hm, if_neg hc]

/-- Settles O11: the word of the two bytes has the byte at the lower address as its high one. -/
theorem fetchIsBigEndian : Obligations.FetchIsBigEndian := fun m a =>
  ⟨fun h => ⟨_, fetchWord_ok m h, by rw [opcodeOfBytes_toNat, Nat.mul_comm]⟩, fetchWord_error m⟩

/-! ### Stores -/

theorem EffectShape.mem_read {s u : State} {i : Instr} (h : EffectShape s i u) (hm : s.mem.wf = true) {a : Nat}
    (ha : a < dataBase s ∨ dataBase s + storeWidth i ≤ a) : u.mem.read a = s.mem.read a := by
  cases h with
  | store bs width written => exact writeSpan_read hm written (width ▸ ha)
  | _ => rfl

/-- Settles O50: a fault writes no memory, and an effect writes at most its store's span. -/
theorem memoryWrittenAsListed : Obligations.MemoryWrittenAsListed := by
  intro i s t a hm ht ha
  rcases exec_shape ht with ⟨f, rfl, _⟩ | ⟨u, hs, _, rfl⟩
  · rw [faultEntry_mem]
  · exact hs.mem_read hm ha

/-- STORE_REGS within memory commits the store of `V[0]` to `V[x]` (42_index_memory.md R110). -/
theorem exec_storeRegs_ok {x : Reg} {s : State} (hd : s.i.toNat + x.toNat < 4096) (hp : s.pc.toNat + 2 < 4096) :
    exec (.storeRegs x) s = .next { s with
      mem := storeBytes s.mem s.i.toNat (regsUpTo s x)
      pc := BitVec.ofNat 16 (s.pc.toNat + 2)
      runState := .running } := by
  have hlen : s.i.toNat + (regsUpTo s x).length ≤ 4096 := by rw [regsUpTo_length]; omega
  have he : effectOf (.storeRegs x) s = .ok { s with mem := storeBytes s.mem s.i.toNat (regsUpTo s x) } := by
    simp only [effectOf, dataBase_eq, writeSpan_ok s.mem hlen, map_ok]
  rw [exec_eq_retire, he]
  exact retire_ok _ _ _ hp

/-- The byte at `I + k` after `V[0]` to `V[x]` are stored from `I` on. -/
theorem storeBytes_regsUpTo_read {x k : Reg} {s : State} (hm : s.mem.wf = true) (hd : s.i.toNat + x.toNat < 4096)
    (hk : k.toNat ≤ x.toNat) : (storeBytes s.mem s.i.toNat (regsUpTo s x)).read (s.i.toNat + k.toNat) = s.getV k := by
  have hlen := regsUpTo_length s x
  rw [storeBytes_read _ hm _ (by omega), if_pos (by omega), Nat.add_sub_cancel_left]
  exact regsUpTo_getD s hk

/-- The index of the next register, where there is one. -/
theorem reg_succ_toNat {x k : Reg} (h : k.toNat < x.toNat) : (k + 1#4).toNat = k.toNat + 1 := by
  have := x.isLt
  rw [BitVec.toNat_add, BitVec.toNat_ofNat]
  omega

/-- Settles O42: both bytes of the word lie in the stored span. -/
theorem storesAreSeenByFetch : Obligations.StoresAreSeenByFetch := by
  intro x k s hm hd hp hk
  have hsucc := reg_succ_toNat hk
  refine ⟨_, exec_storeRegs_ok hd hp, ?_⟩
  rw [fetchWord_ok _ (by omega), Nat.add_assoc, ← hsucc, storeBytes_regsUpTo_read hm hd (by omega),
    storeBytes_regsUpTo_read hm hd (by omega)]

/-! ### Program load -/

section
variable {bytes : List Byte} {h : Session}

theorem sessionLoad_ok (hidle : h.core.runState = .idle) (hfirst : h.loaded = false)
    (hfit : 0x200 + bytes.length ≤ 4096) : sessionLoad bytes h =
      some (⟨{ h.core with mem := copyBytes h.core.mem 0x200 bytes }, true, false⟩, .loadOk) := by
  rw [sessionLoad, if_pos ⟨hidle, hfirst⟩, load_ok bytes h.core hfit]

theorem sessionLoad_error (hidle : h.core.runState = .idle) (hfirst : h.loaded = false)
    (hbig : 4096 < 0x200 + bytes.length) : sessionLoad bytes h = some (⟨h.core, true, true⟩, .loadError) := by
  rw [sessionLoad, if_pos ⟨hidle, hfirst⟩, load_error bytes h.core hbig]

theorem sessionLoad_none (hno : h.core.runState ≠ .idle ∨ h.loaded = true) : sessionLoad bytes h = none := by
  refine if_neg ?_
  rintro ⟨hidle, hfirst⟩
  rcases hno with hrun | hloaded
  · exact hrun hidle
  · exact Bool.false_ne_true (hfirst.symm.trans hloaded)

/-- Everything a load move can do to the core: copy an image that fits, or nothing. -/
theorem sessionLoad_cases {h' : Session} {r : HostReply} (hl : sessionLoad bytes h = some (h', r)) :
    (0x200 + bytes.length ≤ 4096 ∧ h'.core = { h.core with mem := copyBytes h.core.mem 0x200 bytes }) ∨
    h'.core = h.core := by
  by_cases hduty : h.core.runState = .idle ∧ h.loaded = false
  · obtain ⟨hidle, hfirst⟩ := hduty
    by_cases hfit : 0x200 + bytes.length ≤ 4096
    · rw [sessionLoad_ok hidle hfirst hfit] at hl
      cases hl
      exact .inl ⟨hfit, rfl⟩
    · rw [sessionLoad_error hidle hfirst (Nat.lt_of_not_le hfit)] at hl
      cases hl
      exact .inr rfl
  · rw [sessionLoad, if_neg hduty] at hl
    cases hl

end

/-- Settles O53, from what a load answers in each case and what the copied memory reads. -/
theorem loadContract : Obligations.LoadContract := by
  intro h bytes hm
  refine ⟨fun hidle hfirst => ⟨fun hfit => ⟨_, sessionLoad_ok hidle hfirst hfit, ?_, ?_, rfl, rfl⟩,
    fun hbig => ⟨_, sessionLoad_error hidle hfirst hbig, rfl⟩⟩, sessionLoad_none⟩
  · intro k hk
    rw [copyBytes_read bytes hm hfit, if_pos (by omega), Nat.add_sub_cancel_left]
    rfl
  · intro a ha
    rw [copyBytes_read bytes hm hfit, if_neg (by omega)]

/-! ### The invariant over the host's moves -/

theorem State.Inv.withTimers {s : State} (h : s.Inv) (d e : Byte) : State.Inv { s with dt := d, st := e } :=
  ⟨h.pc, h.sp, h.mem, h.stack, h.returns, h.record, h.halted⟩

theorem sessionLoad_inv {bytes : List Byte} {h h' : Session} {r : HostReply} (hi : h.core.Inv)
    (hl : sessionLoad bytes h = some (h', r)) : h'.core.Inv := by
  rcases sessionLoad_cases hl with ⟨hfit, he⟩ | he <;> rw [he]
  · exact hi.withMem (copyBytes_wf bytes hi.mem hfit)
  · exact hi

/-- A tick the host makes is one step of the core. -/
theorem sessionTick_step {h h' : Session} {r : HostReply} (ht : sessionTick h = some (h', r)) :
    step h.core = .next h'.core := by
  obtain ⟨t, hs⟩ := step_next h.core
  unfold sessionTick at ht
  rw [hs] at ht ⊢
  split at ht <;> cases ht
  rfl

/-- Settles O24: a tick is a step, a load that fits copies within memory, the timers are free, and the other moves but
`reset` leave the core as it was. -/
theorem hostMovesKeepInvariant : Obligations.HostMovesKeepInvariant := by
  intro h h' m r hi hm
  cases m with
  | reset v => cases hm; exact resetWith_inv v
  | load bytes => exact sessionLoad_inv hi hm
  | tick => exact step_inv hi (sessionTick_step hm)
  | timerWrite t b =>
    cases hm
    obtain ⟨d, e, he⟩ := timerWrite_eq t b h.core
    exact he ▸ hi.withTimers d e
  | timerDecrement => cases hm; exact hi.withTimers _ _
  | timerRead _ | fbSnapshot | status => cases hm; exact hi

end Sys2Proof.Machine
end

section
/-!
PROOFS. Encoding (30_encoding.md R70 to R79): decode and encode undo each other, and which answer decode gives to a word
is said once, for instructions and unrecognized words together, by `decode_eq_iff`.
-/

namespace Sys2Proof

/-! ### Decode of encode -/

/-- The fields of a format are its operands, and each family selects on what the format fixes. -/
theorem decode_encode (i : Instr) : decode (encode i) = .instr i := by
  cases i
  case clear | ret => rfl
  case jump | call | loadI | skipEqImm | skipNeqImm | loadImm | addImm | draw => simp [encode, decode]
  case skipEqReg => simp [encode, decode, decodeFive]
  case skipNeqReg => simp [encode, decode, decodeNine]
  case loadReg | orReg | andReg | xorReg | addReg | subReg | shiftRight | subnReg | shiftLeft =>
    simp [encode, decode, decodeEight]
  case addI | storeBcd | storeRegs | loadRegs => simp [encode, decode, decodeF]

/-- Settles O1. -/
theorem decodeOfEncode : Obligations.DecodeOfEncode := decode_encode

/-! ### What decode answers -/

/-- The words the table of R77 lists in a group, by value. -/
def UnrecognizedGroup.Lists : UnrecognizedGroup → Nat → Prop
  | .zeroFamily, w => w < 0x1000 ∧ w ≠ 0x00E0 ∧ w ≠ 0x00EE
  | .fiveFamily, w => w / 4096 = 5 ∧ w % 16 ≠ 0
  | .eightFamily, w => w / 4096 = 8 ∧ w % 16 ∈ [8, 9, 10, 11, 12, 13, 15]
  | .nineFamily, w => w / 4096 = 9 ∧ w % 16 ≠ 0
  | .noFamily, w => w / 4096 = 0xB ∨ w / 4096 = 0xC ∨ w / 4096 = 0xE
  | .fFamily, w => w / 4096 = 0xF ∧ w % 256 ∉ [0x1E, 0x33, 0x55, 0x65]

/-- An answer is right for a word: the instruction's encoding is the word, or the group lists it. -/
def Decoded.Describes : Decoded → Opcode → Prop
  | .instr i, w => encode i = w
  | .unrecognized g, w => g.Lists w.toNat

section
variable {w : Opcode}

theorem decodeZero_describes (h : (opField w).toNat = 0x0) : (decodeZero w).Describes w := by
  rw [opField_toNat] at h
  unfold decodeZero
  split
  · next hw => exact BitVec.eq_of_toNat_eq hw.symm
  · next hw => exact BitVec.eq_of_toNat_eq hw.symm
  · next hclear hret => exact ⟨by omega, hclear, hret⟩

theorem decodeFive_describes (h : (opField w).toNat = 0x5) : (decodeFive w).Describes w := by
  unfold decodeFive
  split
  · next hn => exact formatXYN_fields w h hn
  · next hn => exact ⟨opField_toNat w ▸ h, nField_toNat w ▸ hn⟩

/-- The nibbles R77 lists are those that are no sub-opcode of the family. -/
theorem decodeEight_describes (h : (opField w).toNat = 0x8) : (decodeEight w).Describes w := by
  unfold decodeEight
  split
  case h_10 =>
    simp only [nField_toNat, imp_false] at *
    refine ⟨opField_toNat w ▸ h, ?_⟩
    simp only [List.mem_cons, List.not_mem_nil, or_false]
    omega
  all_goals
    next hn => exact formatXYN_fields w h hn

theorem decodeNine_describes (h : (opField w).toNat = 0x9) : (decodeNine w).Describes w := by
  unfold decodeNine
  split
  · next hn => exact formatXYN_fields w h hn
  · next hn => exact ⟨opField_toNat w ▸ h, nField_toNat w ▸ hn⟩

theorem decodeF_describes (h : (opField w).toNat = 0xF) : (decodeF w).Describes w := by
  unfold decodeF
  split
  case h_5 =>
    simp only [kkField_toNat, imp_false] at *
    refine ⟨opField_toNat w ▸ h, ?_⟩
    simp only [List.mem_cons, List.not_mem_nil, or_false, not_or]
    omega
  all_goals
    next hkk => exact formatXKK_fields w h hkk

/-- What decode answers is right for the word: one case per row of the first-level map (R75). -/
theorem decode_describes (w : Opcode) : (decode w).Describes w := by
  have hw := w.isLt
  unfold decode
  split
  next h => exact decodeZero_describes h
  next h => exact formatNNN_fields w h
  next h => exact formatNNN_fields w h
  next h => exact formatXKK_fields w h rfl
  next h => exact formatXKK_fields w h rfl
  next h => exact decodeFive_describes h
  next h => exact formatXKK_fields w h rfl
  next h => exact formatXKK_fields w h rfl
  next h => exact decodeEight_describes h
  next h => exact decodeNine_describes h
  next h => exact formatNNN_fields w h
  next h => exact formatXYN_fields w h rfl
  next h => exact decodeF_describes h
  next =>
    simp only [opField_toNat, imp_false] at *
    simp only [Decoded.Describes, UnrecognizedGroup.Lists]
    omega

/-- A listed word is answered with its group: its `op` selects the family, and its sub-opcode none of the rows. -/
theorem decode_of_lists {g : UnrecognizedGroup} (h : g.Lists w.toNat) : decode w = .unrecognized g := by
  cases g
  case zeroFamily =>
    obtain ⟨hlt, hclear, hret⟩ := h
    have hop : (opField w).toNat = 0x0 := by rw [opField_toNat]; omega
    simp [decode, hop, decodeZero]
  case fiveFamily =>
    obtain ⟨hop, hn⟩ := h
    simp [decode, opField_toNat, hop, decodeFive, nField_toNat]
  case eightFamily =>
    obtain ⟨hop, hn⟩ := h
    simp only [List.mem_cons, List.not_mem_nil, or_false] at hn
    rcases hn with hn | hn | hn | hn | hn | hn | hn <;>
      simp [decode, opField_toNat, hop, decodeEight, nField_toNat, hn]
  case nineFamily =>
    obtain ⟨hop, hn⟩ := h
    simp [decode, opField_toNat, hop, decodeNine, nField_toNat]
  case noFamily => rcases h with hop | hop | hop <;> simp [decode, opField_toNat, hop]
  case fFamily =>
    obtain ⟨hop, hkk⟩ := h
    simp only [List.mem_cons, List.not_mem_nil, or_false, not_or] at hkk
    simp [decode, opField_toNat, hop, decodeF, kkField_toNat, hkk]

end

/-- The answer decode gives to a word is the one that is right for it. -/
theorem decode_eq_iff (w : Opcode) (d : Decoded) : decode w = d ↔ d.Describes w := by
  constructor
  · rintro rfl
    exact decode_describes w
  · intro h
    cases d with
    | instr i => exact h ▸ decode_encode i
    | unrecognized g => exact decode_of_lists h

theorem encode_of_decode {w : Opcode} {i : Instr} (h : decode w = .instr i) : encode i = w := (decode_eq_iff w _).mp h

theorem decode_of_encode {w : Opcode} {i : Instr} (h : encode i = w) : decode w = .instr i := (decode_eq_iff w _).mpr h

/-- Settles O2: the answer describes the word. -/
theorem encodeOfDecode : Obligations.EncodeOfDecode := fun _ _ => encode_of_decode

/-- Settles O6: `UnrecognizedGroup.Lists` is R77's table, group by group. -/
theorem unrecognizedGroups : Obligations.UnrecognizedGroups := fun w =>
  have listed g := decode_eq_iff w (.unrecognized g)
  ⟨listed .zeroFamily, listed .fiveFamily, listed .eightFamily, listed .nineFamily, listed .noFamily, listed .fFamily⟩

/-- Settles O5: a word with a row's selectors is the row's format over its own fields, and a word with none of a
family's selectors is listed in the family's group. -/
theorem decodeFollowsOpcodeMap : Obligations.DecodeFollowsOpcodeMap := by
  intro w x y n kk nnn hx hy hn hkk hnnn
  obtain rfl : x = xField w := BitVec.eq_of_toNat_eq (hx.trans (xField_toNat w).symm)
  obtain rfl : y = yField w := BitVec.eq_of_toNat_eq (hy.trans (yField_toNat w).symm)
  obtain rfl : n = nField w := BitVec.eq_of_toNat_eq (hn.trans (nField_toNat w).symm)
  obtain rfl : kk = kkField w := BitVec.eq_of_toNat_eq (hkk.trans (kkField_toNat w).symm)
  obtain rfl : nnn = nnnField w := BitVec.eq_of_toNat_eq (hnnn.trans (nnnField_toNat w).symm)
  have hop := opField_toNat w
  have unlisted g (h : g.Lists w.toNat) : ∃ g, decode w = .unrecognized g := ⟨g, decode_of_lists h⟩
  exact ⟨
    -- the `0` family
    fun _ h => decode_of_encode (BitVec.eq_of_toNat_eq h.symm),
    fun _ h => decode_of_encode (BitVec.eq_of_toNat_eq h.symm),
    fun h hclear hret => unlisted .zeroFamily ⟨by omega, hclear, hret⟩,
    -- `1` to `7`
    fun h => decode_of_encode (formatNNN_fields w (hop.trans h)),
    fun h => decode_of_encode (formatNNN_fields w (hop.trans h)),
    fun h => decode_of_encode (formatXKK_fields w (hop.trans h) rfl),
    fun h => decode_of_encode (formatXKK_fields w (hop.trans h) rfl),
    fun h h0 => decode_of_encode (formatXYN_fields w (hop.trans h) h0),
    fun h h0 => unlisted .fiveFamily ⟨h, hn ▸ h0⟩,
    fun h => decode_of_encode (formatXKK_fields w (hop.trans h) rfl),
    fun h => decode_of_encode (formatXKK_fields w (hop.trans h) rfl),
    -- the `8` family
    fun h hsub => decode_of_encode (formatXYN_fields w (hop.trans h) hsub),
    fun h hsub => decode_of_encode (formatXYN_fields w (hop.trans h) hsub),
    fun h hsub => decode_of_encode (formatXYN_fields w (hop.trans h) hsub),
    fun h hsub => decode_of_encode (formatXYN_fields w (hop.trans h) hsub),
    fun h hsub => decode_of_encode (formatXYN_fields w (hop.trans h) hsub),
    fun h hsub => decode_of_encode (formatXYN_fields w (hop.trans h) hsub),
    fun h hsub => decode_of_encode (formatXYN_fields w (hop.trans h) hsub),
    fun h hsub => decode_of_encode (formatXYN_fields w (hop.trans h) hsub),
    fun h hsub => decode_of_encode (formatXYN_fields w (hop.trans h) hsub),
    fun h h8 hE => unlisted .eightFamily ⟨h, by
      simp only [List.mem_cons, List.not_mem_nil, or_false]
      omega⟩,
    -- `9` to `E`
    fun h h0 => decode_of_encode (formatXYN_fields w (hop.trans h) h0),
    fun h h0 => unlisted .nineFamily ⟨h, hn ▸ h0⟩,
    fun h => decode_of_encode (formatNNN_fields w (hop.trans h)),
    fun h => unlisted .noFamily (.inl h),
    fun h => unlisted .noFamily (.inr (.inl h)),
    fun h => decode_of_encode (formatXYN_fields w (hop.trans h) rfl),
    fun h => unlisted .noFamily (.inr (.inr h)),
    -- the `F` family
    fun h hsub => decode_of_encode (formatXKK_fields w (hop.trans h) hsub),
    fun h hsub => decode_of_encode (formatXKK_fields w (hop.trans h) hsub),
    fun h hsub => decode_of_encode (formatXKK_fields w (hop.trans h) hsub),
    fun h hsub => decode_of_encode (formatXKK_fields w (hop.trans h) hsub),
    fun h hsub => unlisted .fFamily ⟨h, hkk ▸ hsub⟩⟩

/-- Settles O7: each word written in binary is the encoding of what it stands for, and each close miss is listed. -/
theorem specWordsDecode : Obligations.SpecWordsDecode :=
  ⟨decode_encode .clear, decode_encode .ret, decode_encode (.jump 0x234), decode_encode (.call 0x300),
    decode_encode (.skipEqImm 3 0x42), decode_encode (.skipEqReg 1 2), decode_encode (.shiftLeft 0 1),
    decode_encode (.loadI 0x2F0), decode_encode (.draw 0 1 2), decode_encode (.addI 4),
    decode_of_lists ⟨rfl, by decide⟩, decode_of_lists ⟨by decide, by decide, by decide⟩,
    decode_of_lists ⟨rfl, by decide⟩⟩

end Sys2Proof
end

section
/-!
PROOFS. The opcode table (30_encoding.md R74): a word matches a row exactly when it decodes to an instruction of that
row, `matchesRow_iff`. Each of the table's four masks picks out fields of R71.
-/

namespace Sys2Proof

/-! ### Masks -/

theorem formatNNN_and (a b : BitVec 4) (c d : BitVec 12) :
    formatNNN a c &&& formatNNN b d = formatNNN (a &&& b) (c &&& d) :=
  BitVec.and_append

theorem formatXKK_and (a b x y : BitVec 4) (c d : Byte) :
    formatXKK a x c &&& formatXKK b y d = formatXKK (a &&& b) (x &&& y) (c &&& d) :=
  BitVec.and_append.trans (by rw [BitVec.and_append]; rfl)

theorem formatXYN_and (a b x x' y y' n n' : BitVec 4) :
    formatXYN a x y n &&& formatXYN b x' y' n' = formatXYN (a &&& b) (x &&& x') (y &&& y') (n &&& n') :=
  BitVec.and_append.trans (by rw [BitVec.and_append, BitVec.and_append]; rfl)

theorem and_FFFF (w : Opcode) : w &&& 0xFFFF#16 = w := BitVec.and_allOnes

theorem and_F000 (w : Opcode) : w &&& 0xF000#16 = formatNNN (opField w) 0#12 :=
  calc w &&& 0xF000#16
    _ = formatNNN (opField w) (nnnField w) &&& formatNNN (.allOnes 4) 0#12 := by rw [formatNNN_fields w rfl]; rfl
    _ = formatNNN (opField w) 0#12 := by simp only [formatNNN_and, BitVec.and_allOnes, BitVec.and_zero]

theorem and_F00F (w : Opcode) : w &&& 0xF00F#16 = formatXYN (opField w) 0#4 0#4 (nField w) :=
  calc w &&& 0xF00F#16
    _ = formatXYN (opField w) (xField w) (yField w) (nField w) &&& formatXYN (.allOnes 4) 0#4 0#4 (.allOnes 4) := by
      rw [formatXYN_fields w rfl rfl]; rfl
    _ = formatXYN (opField w) 0#4 0#4 (nField w) := by simp only [formatXYN_and, BitVec.and_allOnes, BitVec.and_zero]

theorem and_F0FF (w : Opcode) : w &&& 0xF0FF#16 = formatXKK (opField w) 0#4 (kkField w) :=
  calc w &&& 0xF0FF#16
    _ = formatXKK (opField w) (xField w) (kkField w) &&& formatXKK (.allOnes 4) 0#4 (.allOnes 8) := by
      rw [formatXKK_fields w rfl rfl]; rfl
    _ = formatXKK (opField w) 0#4 (kkField w) := by simp only [formatXKK_and, BitVec.and_allOnes, BitVec.and_zero]

section
variable {w m : Opcode}

theorem op_of_and_F000 (h : w &&& 0xF000#16 = m) : (opField w).toNat = m.toNat / 4096 := by
  rw [← h, ← opField_toNat, and_F000, opField_formatNNN]

theorem op_n_of_and_F00F (h : w &&& 0xF00F#16 = m) :
    (opField w).toNat = m.toNat / 4096 ∧ (nField w).toNat = m.toNat % 16 := by
  rw [← h, ← opField_toNat, ← nField_toNat, and_F00F, opField_formatXYN, nField_formatXYN]
  exact ⟨rfl, rfl⟩

theorem op_kk_of_and_F0FF (h : w &&& 0xF0FF#16 = m) :
    (opField w).toNat = m.toNat / 4096 ∧ (kkField w).toNat = m.toNat % 256 := by
  rw [← h, ← opField_toNat, ← kkField_toNat, and_F0FF, opField_formatXKK, kkField_formatXKK]
  exact ⟨rfl, rfl⟩

end

/-! ### Rows -/

theorem encode_matches (i : Instr) : matchesRow (encode i) (tableRow i) = true := by
  rw [matchesRow, beq_iff_eq]
  cases i
  case clear | ret => rfl
  case jump | call | loadI | skipEqImm | skipNeqImm | loadImm | addImm | draw =>
    simp only [encode, tableRow, and_F000, opField_formatNNN, opField_formatXKK, opField_formatXYN]
    rfl
  case skipEqReg | skipNeqReg | loadReg | orReg | andReg | xorReg | addReg | subReg | shiftRight | subnReg | shiftLeft =>
    simp only [encode, tableRow, and_F00F, opField_formatXYN, nField_formatXYN]
    rfl
  case addI | storeBcd | storeRegs | loadRegs =>
    simp only [encode, tableRow, and_F0FF, opField_formatXKK, kkField_formatXKK]
    rfl

/-- The fields a row fixes are those decode selects on. -/
theorem decode_of_matches {w : Opcode} {i : Instr} (h : matchesRow w (tableRow i) = true) :
    ∃ j, decode w = .instr j ∧ tableRow j = tableRow i := by
  rw [matchesRow, beq_iff_eq] at h
  cases i
  case clear => exact ⟨.clear, decode_of_encode (h.symm.trans (and_FFFF w)), rfl⟩
  case ret => exact ⟨.ret, decode_of_encode (h.symm.trans (and_FFFF w)), rfl⟩
  case jump | call | loadI | skipEqImm | skipNeqImm | loadImm | addImm | draw =>
    have hop := op_of_and_F000 h
    simp [decode, hop, tableRow]
  case skipEqReg | skipNeqReg | loadReg | orReg | andReg | xorReg | addReg | subReg | shiftRight | subnReg | shiftLeft =>
    obtain ⟨hop, hn⟩ := op_n_of_and_F00F h
    simp [decode, decodeFive, decodeEight, decodeNine, hop, hn, tableRow]
  case addI | storeBcd | storeRegs | loadRegs =>
    obtain ⟨hop, hkk⟩ := op_kk_of_and_F0FF h
    simp [decode, decodeF, hop, hkk, tableRow]

/-- One instruction of each row, in the table's order. -/
def rowInstrs : List Instr :=
  [.clear, .ret, .jump 0, .call 0, .skipEqImm 0 0, .skipNeqImm 0 0, .skipEqReg 0 0, .loadImm 0 0, .addImm 0 0,
   .loadReg 0 0, .orReg 0 0, .andReg 0 0, .xorReg 0 0, .addReg 0 0, .subReg 0 0, .shiftRight 0 0, .subnReg 0 0,
   .shiftLeft 0 0, .skipNeqReg 0 0, .loadI 0, .draw 0 0 0, .addI 0, .storeBcd 0, .storeRegs 0, .loadRegs 0]

theorem opcodeTable_eq_map : opcodeTable = rowInstrs.map tableRow := rfl

theorem tableRow_mem (i : Instr) : tableRow i ∈ opcodeTable := by
  cases i <;> simp [tableRow, opcodeTable]

/-- A word matches a row of the table exactly when it decodes to an instruction of that row. -/
theorem matchesRow_iff {w : Opcode} {r : TableRow} (hr : r ∈ opcodeTable) :
    matchesRow w r = true ↔ ∃ i, decode w = .instr i ∧ tableRow i = r := by
  rw [opcodeTable_eq_map] at hr
  obtain ⟨j, -, rfl⟩ := List.mem_map.mp hr
  constructor
  · exact decode_of_matches
  · rintro ⟨i, hi, hrow⟩
    rw [← encode_of_decode hi, ← hrow]
    exact encode_matches i

/-- Settles O3: the row a recognized word matches is its instruction's. -/
theorem recognizedIffTableRowMatches : Obligations.RecognizedIffTableRowMatches := by
  intro w
  constructor
  · rintro ⟨i, hi⟩
    exact ⟨tableRow i, tableRow_mem i, (matchesRow_iff (tableRow_mem i)).mpr ⟨i, hi, rfl⟩⟩
  · rintro ⟨r, hr, hm⟩
    obtain ⟨i, hi, -⟩ := (matchesRow_iff hr).mp hm
    exact ⟨i, hi⟩

/-- Settles O4: a row the word matches is that of the one instruction it decodes to. -/
theorem opcodeTableUnambiguous : Obligations.OpcodeTableUnambiguous := by
  intro w r hr q hq hmr hmq
  obtain ⟨i, hi, rfl⟩ := (matchesRow_iff hr).mp hmr
  obtain ⟨j, hj, rfl⟩ := (matchesRow_iff hq).mp hmq
  cases hi.symm.trans hj
  rfl

end Sys2Proof
end

section
/-!
PROOFS. The assembler (30_encoding.md R80): each operand format reads back what fits and refuses what does not.
-/

namespace Sys2Proof.Machine

theorem fits_iff {o : RawOperands} :
    o.fits = true ↔ o.x < 16 ∧ o.y < 16 ∧ o.n < 16 ∧ o.kk < 256 ∧ o.nnn < 4096 := by
  simp [RawOperands.fits, and_assoc]

/-! ### Operands that fit -/

theorem assembleNNN_toNat (f : BitVec 12 → Instr) (nnn : BitVec 12) : assembleNNN f [.num nnn.toNat] = some (f nnn) := by
  have hfits : RawOperands.fits { nnn := nnn.toNat } = true :=
    fits_iff.mpr ⟨Nat.succ_pos _, Nat.succ_pos _, Nat.succ_pos _, Nat.succ_pos _, nnn.isLt⟩
  simp [assembleNNN, hfits]

theorem assembleXKK_toNat (f : Reg → Byte → Instr) (x : Reg) (kk : Byte) :
    assembleXKK f [.reg x.toNat, .num kk.toNat] = some (f x kk) := by
  have hfits : RawOperands.fits { x := x.toNat, kk := kk.toNat } = true :=
    fits_iff.mpr ⟨x.isLt, Nat.succ_pos _, Nat.succ_pos _, kk.isLt, Nat.succ_pos _⟩
  simp [assembleXKK, hfits]

theorem assembleXY_toNat (f : Reg → Reg → Instr) (x y : Reg) :
    assembleXY f [.reg x.toNat, .reg y.toNat] = some (f x y) := by
  have hfits : RawOperands.fits { x := x.toNat, y := y.toNat } = true :=
    fits_iff.mpr ⟨x.isLt, y.isLt, Nat.succ_pos _, Nat.succ_pos _, Nat.succ_pos _⟩
  simp [assembleXY, hfits]

theorem assembleXYN_toNat (f : Reg → Reg → BitVec 4 → Instr) (x y : Reg) (n : BitVec 4) :
    assembleXYN f [.reg x.toNat, .reg y.toNat, .num n.toNat] = some (f x y n) := by
  have hfits : RawOperands.fits { x := x.toNat, y := y.toNat, n := n.toNat } = true :=
    fits_iff.mpr ⟨x.isLt, y.isLt, n.isLt, Nat.succ_pos _, Nat.succ_pos _⟩
  simp [assembleXYN, hfits]

theorem assembleX_toNat (f : Reg → Instr) (x : Reg) : assembleX f [.reg x.toNat] = some (f x) := by
  have hfits : RawOperands.fits { x := x.toNat } = true :=
    fits_iff.mpr ⟨x.isLt, Nat.succ_pos _, Nat.succ_pos _, Nat.succ_pos _, Nat.succ_pos _⟩
  simp [assembleX, hfits]

/-- Settles O8: the mnemonic selects the instruction's own format, which reads its operands back. -/
theorem assembleOfOperands : Obligations.AssembleOfOperands := by
  intro i
  cases i
  case clear | ret => rfl
  case jump | call | loadI => exact assembleNNN_toNat ..
  case skipEqImm | skipNeqImm | loadImm | addImm => exact assembleXKK_toNat ..
  case skipEqReg | skipNeqReg | loadReg | orReg | andReg | xorReg | addReg | subReg | shiftRight | subnReg | shiftLeft =>
    exact assembleXY_toNat ..
  case draw => exact assembleXYN_toNat ..
  case addI | storeBcd | storeRegs | loadRegs => exact assembleX_toNat ..

/-! ### Operands that do not fit -/

section
variable {v : Nat}

theorem assembleNNN_refuses (f : BitVec 12 → Instr) (h : 0xFFF < v) : assembleNNN f [.num v] = none :=
  if_neg fun hfits => by
    obtain ⟨-, -, -, -, hnnn⟩ := fits_iff.mp hfits
    exact Nat.not_lt_of_le h hnnn

theorem assembleXKK_refuses (f : Reg → Byte → Instr) (x : Nat) (h : 255 < v) :
    assembleXKK f [.reg x, .num v] = none :=
  if_neg fun hfits => by
    obtain ⟨-, -, -, hkk, -⟩ := fits_iff.mp hfits
    exact Nat.not_lt_of_le h hkk

theorem assembleXYN_refuses (f : Reg → Reg → BitVec 4 → Instr) (x y : Nat) (h : 15 < v) :
    assembleXYN f [.reg x, .reg y, .num v] = none :=
  if_neg fun hfits => by
    obtain ⟨-, -, hn, -, -⟩ := fits_iff.mp hfits
    exact Nat.not_lt_of_le h hn

end

/-- Settles O9: each mnemonic listed selects the format that refuses the value. -/
theorem assemblerRefusesUnfit : Obligations.AssemblerRefusesUnfit := by
  intro x y v
  refine ⟨fun h m hm => ?_, fun h m hm => ?_, assembleXYN_refuses .draw x y⟩
  · simp only [List.mem_cons, List.not_mem_nil, or_false] at hm
    rcases hm with rfl | rfl | rfl | rfl <;> exact assembleXKK_refuses _ x h
  · simp only [List.mem_cons, List.not_mem_nil, or_false] at hm
    rcases hm with rfl | rfl | rfl <;> exact assembleNNN_refuses _ h

end Sys2Proof.Machine
end

section
/-!
PROOFS. The tick (30_encoding.md R82 to R84): which state it ends in, the instruction it runs, and the fetch fault.
-/

namespace Sys2Proof.Machine

variable {s t : State}

/-! ### How a tick ends -/

theorem exec_runState {i : Instr} (h : exec i s = .next t) : t.runState = .running ∨ t.runState = .halted := by
  rcases exec_cases i s t h with ⟨f, rfl⟩ | ⟨u, _, _, rfl⟩
  · exact .inr rfl
  · exact .inl rfl

theorem execUnrecognized_runState {w : Opcode} (h : execUnrecognized w s = .next t) :
    t.runState = .running ∨ t.runState = .halted := by
  rcases execUnrecognized_cases w s with ⟨_, he⟩ | ⟨_, he⟩ <;> rw [he] at h <;> cases h
  · exact .inl rfl
  · exact .inr rfl

theorem step_runState (hr : s.runState ≠ .halted) (h : step s = .next t) :
    t.runState = .running ∨ t.runState = .halted := by
  rcases step_cases s hr with ⟨f, _, he⟩ | ⟨w, i, _, _, he⟩ | ⟨w, g, _, _, he⟩ <;> rw [he] at h
  · cases h
    exact .inr rfl
  · exact exec_runState h
  · exact execUnrecognized_runState h

/-- Settles O18: a Halted core answers itself, and any other tick commits or takes a fault. -/
theorem stepAlwaysAnswersNext : Obligations.StepAlwaysAnswersNext := by
  intro s
  obtain ⟨t, ht⟩ := step_next s
  refine ⟨t, ht, fun hr => ?_, fun hr => step_runState hr ht⟩
  rw [step_halted s hr] at ht
  cases ht
  rfl

/-! ### What a tick runs -/

theorem step_instr {w : Opcode} {i : Instr} (hr : s.runState ≠ .halted) (hf : fetch s = .ok w)
    (hd : decode w = .instr i) : step s = exec i s := by
  rcases step_cases s hr with ⟨f, hf', _⟩ | ⟨v, j, hf', hd', he⟩ | ⟨v, g, hf', hd', _⟩ <;> cases hf.symm.trans hf'
  · cases hd.symm.trans hd'
    exact he
  · cases hd.symm.trans hd'

theorem step_fetch_error {f : Fault} (hr : s.runState ≠ .halted) (hf : fetch s = .error f) :
    step s = .next (faultEntry f 0x0000#16 s) := by
  rcases step_cases s hr with ⟨g, hf', he⟩ | ⟨w, i, hf', _, _⟩ | ⟨w, g, hf', _, _⟩ <;> cases hf.symm.trans hf'
  exact he

/-- Settles O12: within memory fetch answers the two bytes at `PC`. -/
theorem stepRunsDecodedInstruction : Obligations.StepRunsDecodedInstruction := fun s _ hr hp =>
  step_instr hr (fetchWord_ok s.mem hp)

/-! ### The fetch fault -/

theorem fetch_error_iff (s : State) : (∃ f, fetch s = .error f) ↔ 4096 ≤ s.pc.toNat + 1 := by
  constructor
  · rintro ⟨f, hf⟩
    obtain ⟨hge, -⟩ := fetch_error_cases hf
    exact hge
  · exact fun hge => ⟨_, fetchWord_error s.mem hge⟩

/-- Settles O13: `0xFFF` is the one address below 4096 whose next one is out of range. -/
theorem fetchFaultOnlyAtTop : Obligations.FetchFaultOnlyAtTop := by
  intro s hr hlt
  have htop : s.pc = 0xFFF#16 ↔ 4096 ≤ s.pc.toNat + 1 := by
    rw [← BitVec.toNat_inj, BitVec.toNat_ofNat]
    omega
  refine ⟨(fetch_error_iff s).trans htop.symm, fun hpc => ?_⟩
  have hf : fetch s = .error (.outOfBounds 0x1000) := by
    rw [fetch, hpc]
    exact fetchWord_error s.mem (by decide)
  exact ⟨_, step_fetch_error hr hf, faultTaken_faultEntry (.outOfBounds 0x1000) 0x0000#16 s rfl, hpc⟩

end Sys2Proof.Machine
end

section
/-!
SUPPORT. How an instruction runs, from its word, its effect and its next `PC`: the three parts the per-instruction
statements are made of (`HasWord`, `RunsTo`, `FaultTaken`), each said once for every instruction.
-/

namespace Sys2Proof.Machine

variable {i : Instr} {s u : State}

/-- Decode answers an instruction for its encoding alone, so a word's value settles `HasWord`. -/
theorem hasWord_of_encode_toNat {n : Nat} (h : (encode i).toNat = n) : HasWord i n :=
  ⟨h, fun v => (decode_eq_iff v (.instr i)).trans (by rw [← h, BitVec.toNat_inj]; exact eq_comm)⟩

/-- The next `PC` fits the 17 bits of `FAULT_ADDR`, in every state. -/
theorem nextPcOf_lt (i : Instr) (s : State) : nextPcOf i s < 131072 := by
  have hpc := s.pc.isLt
  cases i
  case ret =>
    have := (s.stack.read (s.sp - 1)).isLt
    simp only [nextPcOf]
    omega
  case jump nnn | call nnn =>
    have := nnn.isLt
    simp only [nextPcOf]
    omega
  case skipEqImm | skipNeqImm | skipEqReg | skipNeqReg => simp only [nextPcOf]; split <;> omega
  all_goals simp only [nextPcOf]; omega

/-- An instruction whose effect raises nothing completes at its next `PC`, or takes OutOfBounds of it. -/
theorem runsTo_of_effectOf {post : State → Prop} (he : effectOf i s = .ok u)
    (hp : post { u with pc := BitVec.ofNat 16 (nextPcOf i s), runState := .running }) :
    RunsTo i s (nextPcOf i s) post :=
  have shape := effectOf_shape he
  runsTo_of_retire i s u _ post (nextPcOf_lt i s) (by rw [exec_eq_retire, he]) shape.timers shape.record hp

/-- A fault of the effect is the one the instruction takes. -/
theorem faultTaken_of_effectOf {f : Fault} {a : Nat} (he : effectOf i s = .error f) (ha : (faultAddrOf f).toNat = a) :
    ∃ t, exec i s = .next t ∧ FaultTaken (faultCodeOf f) (encode i) a s t :=
  ⟨_, by rw [exec_eq_retire, he, retire_error], faultTaken_faultEntry f (encode i) s ha⟩

/-- An instruction without an effect of its own writes nothing but `PC` and `RUN_STATE`. -/
theorem runsTo_of_no_effect (he : effectOf i s = .ok s) : RunsTo i s (nextPcOf i s) (SameAllButPc s) :=
  runsTo_of_effectOf he ⟨fun _ => rfl, rfl, ⟨rfl, fun _ => rfl⟩, fun _ => rfl, fun _ _ => rfl⟩

end Sys2Proof.Machine
end

section
/-!
PROOFS. Control flow (40_control_flow.md R86 to R94): JUMP, CALL, RETURN and the skips.
-/

namespace Sys2Proof.Machine

/-! ### Jump, call and return -/

/-- A CALL with room on the stack pushes `A + 2` and jumps. -/
theorem call_runsTo (nnn : BitVec 12) {s : State} (hs : s.stack.wf = true) (room : s.sp < Config.stackCapacity) :
    RunsTo (.call nnn) s nnn.toNat fun t =>
      t.sp = s.sp + 1 ∧ t.stack.read s.sp = s.pc + 2#16 ∧ (∀ k, k ≠ s.sp → t.stack.read k = s.stack.read k) ∧
      SameV s t ∧ t.i = s.i ∧ SameMem s t ∧ SameFb s t := by
  have hret : BitVec.ofNat 16 (followingAddress s) = s.pc + 2#16 := by simp [BitVec.ofNat_add]
  have hread := CallStack.read_write hs s.sp (BitVec.ofNat 16 (followingAddress s))
  exact runsTo_of_effectOf (push_ok s _ room)
    ⟨rfl, ((hread _).trans (if_pos rfl)).trans hret, fun k hk => (hread k).trans (if_neg hk), fun _ => rfl, rfl,
      fun _ => rfl, fun _ _ => rfl⟩

/-- A RETURN with a stack in use goes to the address it pops and leaves every entry in place. -/
theorem ret_runsTo {s : State} (hsp : 0 < s.sp) :
    RunsTo .ret s (s.stack.read (s.sp - 1)).toNat fun t =>
      t.sp = s.sp - 1 ∧ (∀ k, t.stack.read k = s.stack.read k) ∧ SameV s t ∧ t.i = s.i ∧ SameMem s t ∧ SameFb s t :=
  have he : effectOf .ret s = .ok { s with sp := s.sp - 1 } := by
    rw [effectOf, pop_ok s (Nat.ne_of_gt hsp), map_ok]
  runsTo_of_effectOf he ⟨rfl, fun _ => rfl, fun _ => rfl, rfl, fun _ => rfl, fun _ _ => rfl⟩

/-- Settles O28: the RETURN pops the entry the CALL pushed, and `A + 2` below 4096 is in range. -/
theorem callThenReturn : Obligations.CallThenReturn := by
  intro nnn s hs room hpc
  obtain ⟨t, hcall, -, hsp, htop, -⟩ := (call_runsTo nnn hs room).1 nnn.isLt
  refine ⟨t, hcall, fun u husp hutop => ?_⟩
  have hsp' : u.sp = s.sp + 1 := husp.trans hsp
  have hpop : (u.stack.read (u.sp - 1)).toNat = s.pc.toNat + 2 := by
    rw [hsp', Nat.add_sub_cancel, hutop, htop, BitVec.toNat_add, BitVec.toNat_ofNat]
    omega
  obtain ⟨v, hret, ⟨hvpc, hrun, -⟩, hvsp, -⟩ := (ret_runsTo (s := u) (by omega)).1 (by omega)
  exact ⟨v, hret, hvpc.trans hpop, by omega, hrun⟩

/-- Settles O25: a 12-bit target is always in range. -/
theorem jumpSetsPc : Obligations.JumpSetsPc := fun nnn _ =>
  ⟨hasWord_of_encode_toNat (formatNNN_toNat 0x1#4 nnn), (runsTo_of_no_effect (i := .jump nnn) rfl).1 nnn.isLt⟩

/-- Settles O26: with room the push and the jump both commit, and a full stack raises before either. -/
theorem callPushesReturnAddress : Obligations.CallPushesReturnAddress := by
  intro nnn s hs
  refine ⟨hasWord_of_encode_toNat (formatNNN_toNat 0x2#4 nnn), fun room => (call_runsTo nnn hs room).1 nnn.isLt,
    fun hfull => ?_⟩
  exact faultTaken_of_effectOf (f := .stackOverflow) (push_error s _ hfull.not_lt) rfl

/-- Settles O27: an empty stack raises in the pop, and any other is `ret_runsTo`. -/
theorem returnPopsPc : Obligations.ReturnPopsPc := by
  intro s
  refine ⟨hasWord_of_encode_toNat rfl, fun hempty => ?_, fun hsp => (ret_runsTo hsp).1, fun hsp => (ret_runsTo hsp).2⟩
  have he : effectOf .ret s = .error .stackUnderflow := by rw [effectOf, pop_error s hempty, map_error]
  exact faultTaken_of_effectOf he rfl

/-! ### Skips -/

/-- Settles O29: the skips on an immediate have no effect but their next `PC`. -/
theorem skipOnImmediate : Obligations.SkipOnImmediate := fun x kk _ =>
  ⟨hasWord_of_encode_toNat (encode_XKK_toNat 0x3#4 x kk rfl), hasWord_of_encode_toNat (encode_XKK_toNat 0x4#4 x kk rfl),
    runsTo_of_no_effect (i := .skipEqImm x kk) rfl, runsTo_of_no_effect (i := .skipNeqImm x kk) rfl⟩

/-- Settles O30: the skips on two registers have no effect but their next `PC`. -/
theorem skipOnRegisters : Obligations.SkipOnRegisters := fun x y _ =>
  ⟨hasWord_of_encode_toNat (encode_XYS_toNat 0x5#4 x y 0x0#4 rfl),
    hasWord_of_encode_toNat (encode_XYS_toNat 0x9#4 x y 0x0#4 rfl),
    runsTo_of_no_effect (i := .skipEqReg x y) rfl, runsTo_of_no_effect (i := .skipNeqReg x y) rfl⟩

end Sys2Proof.Machine
end

section
/-!
PROOFS. Register loads, arithmetic and logic (41_alu.md R95 to R106). An ALU instruction writes `V[x]`, or the flag and
then `V[x]`; what a run of it leaves is said once for each of the two, and each instruction adds the value it writes.
-/

namespace Sys2Proof.Machine

/-! ### Runs that write registers -/

theorem sameOutsideV_of_v (s : State) (v : Vector Byte 16) (pc : Word) (r : RunState) :
    SameOutsideV s { s with v := v, pc := pc, runState := r } :=
  ⟨rfl, ⟨rfl, fun _ => rfl⟩, fun _ => rfl, fun _ _ => rfl⟩

section
variable {i : Instr} {s : State} {x : Reg} {b g : Byte} {α : Type}

/-- A run whose effect writes `V[x]` alone, with the registers viewed through `f` (their values as numbers, say). -/
theorem runsTo_of_setV (f : Byte → α) {vb : α} (he : effectOf i s = .ok (s.setV x b)) (hb : f b = vb) :
    RunsTo i s (nextPcOf i s) fun t =>
      (∀ r, f (t.getV r) = if r = x then vb else f (s.getV r)) ∧ SameOutsideV s t :=
  have hread r : f ((s.setV x b).getV r) = if r = x then vb else f (s.getV r) := by
    rw [getV_setV, apply_ite f, hb]
  runsTo_of_effectOf he ⟨hread, sameOutsideV_of_v ..⟩

/-- A run whose effect writes the flag and then `V[x]`, with the registers viewed through `f`. -/
theorem runsTo_of_setFlagThenV (f : Byte → α) {vb vg : α} (he : effectOf i s = .ok (s.setFlagThenV g x b))
    (hb : f b = vb) (hg : f g = vg) :
    RunsTo i s (nextPcOf i s) fun t =>
      (∀ r, f (t.getV r) = if r = x then vb else if r = 0xF#4 then vg else f (s.getV r)) ∧ SameOutsideV s t :=
  have hread r : f ((s.setFlagThenV g x b).getV r) =
      if r = x then vb else if r = 0xF#4 then vg else f (s.getV r) := by
    rw [getV_setFlagThenV, apply_ite f, apply_ite f, hb, hg]
  runsTo_of_effectOf he ⟨hread, sameOutsideV_of_v ..⟩

/-- A run whose effect writes `V[x]` alone, with the result given bit by bit. -/
theorem runsTo_of_setV_bits {bit : Nat → Bool} (he : effectOf i s = .ok (s.setV x b))
    (hb : ∀ k, b.getLsbD k = bit k) :
    RunsTo i s (nextPcOf i s) fun t =>
      (∀ k, (t.getV x).getLsbD k = bit k) ∧ (∀ r, r ≠ x → t.getV r = s.getV r) ∧ SameOutsideV s t :=
  have hbits k : ((s.setV x b).getV x).getLsbD k = bit k := by rw [getV_setV_same, hb]
  runsTo_of_effectOf he ⟨hbits, fun _ hr => getV_setV_ne s x b hr, sameOutsideV_of_v ..⟩

end

/-! ### The values written, as numbers -/

theorem flagBit_toNat (c : Bool) : (flagBit c).toNat = if c then 1 else 0 := apply_ite BitVec.toNat ..

theorem carryFlag_toNat (a b : Byte) : (carryFlag a b).toNat = if 255 < a.toNat + b.toNat then 1 else 0 := by
  simp only [carryFlag, flagBit_toNat, decide_eq_true_eq]

theorem noBorrowFlag_toNat_cast (a b : Byte) :
    ((noBorrowFlag a b).toNat : Int) = if b.toNat ≤ a.toNat then 1 else 0 := by
  simp only [noBorrowFlag, flagBit_toNat, decide_eq_true_eq, Nat.cast_ite, Nat.cast_one, Nat.cast_zero]

/-- `a - b mod 256` (R103, R105): over the integers, since the difference may be negative. -/
theorem sub_toNat_cast (a b : Byte) : ((a - b).toNat : Int) = ((a.toNat : Int) - (b.toNat : Int)) % 256 := by
  have := a.isLt
  have := b.isLt
  rw [BitVec.toNat_sub]
  omega

theorem shiftRight_one_toNat (b : Byte) : (b >>> 1).toNat = b.toNat / 2 := by
  rw [BitVec.toNat_ushiftRight, Nat.shiftRight_eq_div_pow, Nat.pow_one]

theorem shiftLeft_one_toNat (b : Byte) : (b <<< 1).toNat = 2 * b.toNat % 256 := by
  rw [BitVec.toNat_shiftLeft, Nat.shiftLeft_eq, Nat.pow_one, Nat.mul_comm]

theorem shiftedOutRight_toNat (b : Byte) : (shiftedOutRight b).toNat = b.toNat % 2 := by
  rw [shiftedOutRight, BitVec.toNat_and]
  exact Nat.and_one_is_mod _

/-- Bit 7 of a byte is its most significant one. -/
theorem and_0x80_ne_zero_iff (b : Byte) : b &&& 0x80#8 ≠ 0x00#8 ↔ 128 ≤ b.toNat := by
  have hmask : b &&& 0x80#8 = if b.getLsbD 7 then 0x80#8 else 0x00#8 := BitVec.and_twoPow b 7
  have htop : b.getLsbD 7 = decide (128 ≤ b.toNat) := BitVec.msb_eq_decide b
  rw [hmask, htop]
  by_cases h : 128 ≤ b.toNat <;> simp [h]

theorem shiftedOutLeft_toNat (b : Byte) : (shiftedOutLeft b).toNat = b.toNat / 128 := by
  have := b.isLt
  simp only [shiftedOutLeft, flagBit_toNat, decide_eq_true_eq, and_0x80_ne_zero_iff]
  split <;> omega

/-! ### The instructions -/

/-- Settles O34: the effect writes the carry and then the sum. -/
theorem addRegSumAndCarry : Obligations.AddRegSumAndCarry := fun x y _ =>
  ⟨hasWord_of_encode_toNat (encode_XYS_toNat 0x8#4 x y 0x4#4 rfl),
    runsTo_of_setFlagThenV (i := .addReg x y) BitVec.toNat rfl (BitVec.toNat_add ..) (carryFlag_toNat ..)⟩

/-- Settles O35: both effects write NOT borrow and then the difference, with the operands exchanged. -/
theorem subtractionsAndBorrow : Obligations.SubtractionsAndBorrow := fun x y _ =>
  ⟨hasWord_of_encode_toNat (encode_XYS_toNat 0x8#4 x y 0x5#4 rfl),
    hasWord_of_encode_toNat (encode_XYS_toNat 0x8#4 x y 0x7#4 rfl),
    runsTo_of_setFlagThenV (i := .subReg x y) (fun b => (b.toNat : Int)) rfl (sub_toNat_cast ..)
      (noBorrowFlag_toNat_cast ..),
    runsTo_of_setFlagThenV (i := .subnReg x y) (fun b => (b.toNat : Int)) rfl (sub_toNat_cast ..)
      (noBorrowFlag_toNat_cast ..)⟩

/-- Settles O36: both effects write the bit shifted out of `V[y]` and then the shifted value. -/
theorem shiftsOfVy : Obligations.ShiftsOfVy := fun x y _ =>
  ⟨hasWord_of_encode_toNat (encode_XYS_toNat 0x8#4 x y 0x6#4 rfl),
    hasWord_of_encode_toNat (encode_XYS_toNat 0x8#4 x y 0xE#4 rfl),
    runsTo_of_setFlagThenV (i := .shiftRight x y) BitVec.toNat rfl (shiftRight_one_toNat _) (shiftedOutRight_toNat _),
    runsTo_of_setFlagThenV (i := .shiftLeft x y) BitVec.toNat rfl (shiftLeft_one_toNat _) (shiftedOutLeft_toNat _)⟩

/-- Settles O32: both effects write `V[x]` alone. -/
theorem immediateLoadAndAdd : Obligations.ImmediateLoadAndAdd := fun x kk _ =>
  ⟨hasWord_of_encode_toNat (encode_XKK_toNat 0x6#4 x kk rfl),
    hasWord_of_encode_toNat (encode_XKK_toNat 0x7#4 x kk rfl),
    runsTo_of_setV (i := .loadImm x kk) id rfl rfl,
    runsTo_of_setV (i := .addImm x kk) BitVec.toNat rfl (BitVec.toNat_add ..)⟩

/-- Settles O33: the copy and the three combinations write `V[x]` alone, bit by bit. -/
theorem registerCopyAndLogic : Obligations.RegisterCopyAndLogic := fun x y _ =>
  ⟨hasWord_of_encode_toNat (encode_XYS_toNat 0x8#4 x y 0x0#4 rfl),
    hasWord_of_encode_toNat (encode_XYS_toNat 0x8#4 x y 0x1#4 rfl),
    hasWord_of_encode_toNat (encode_XYS_toNat 0x8#4 x y 0x2#4 rfl),
    hasWord_of_encode_toNat (encode_XYS_toNat 0x8#4 x y 0x3#4 rfl),
    runsTo_of_setV (i := .loadReg x y) id rfl rfl,
    runsTo_of_setV_bits (i := .orReg x y) rfl fun _ => BitVec.getLsbD_or,
    runsTo_of_setV_bits (i := .andReg x y) rfl fun _ => BitVec.getLsbD_and,
    runsTo_of_setV_bits (i := .xorReg x y) rfl fun _ => BitVec.getLsbD_xor⟩

end Sys2Proof.Machine
end

section
/-!
PROOFS. The index register and memory transfers (42_index_memory.md R107 to R112). What a run that stores bytes at `I`
leaves is said once for STORE_BCD and STORE_REGS; each adds the bytes it stores.
-/

namespace Sys2Proof.Machine

/-- A run keeps whatever follows from what it leaves. -/
theorem RunsTo.imp {i : Instr} {s : State} {target : Nat} {post post' : State → Prop} (h : RunsTo i s target post)
    (himp : ∀ t, post t → post' t) : RunsTo i s target post' :=
  ⟨fun hlt => let ⟨t, he, hc, hp⟩ := h.1 hlt; ⟨t, he, hc, himp t hp⟩, h.2⟩

/-! ### Runs that access memory at `I` -/

section
variable {i : Instr} {s : State} {bs : List Byte}

/-- `I` has 16 bits, so the first data address out of range fits `FAULT_ADDR` (20_memory.md R61). -/
theorem faultTaken_of_data_error (he : effectOf i s = .error (.outOfBounds (max s.i.toNat 4096))) :
    ∃ t, exec i s = .next t ∧ FaultTaken .outOfBounds (encode i) (max s.i.toNat 4096) s t :=
  faultTaken_of_effectOf he (faultAddr_outOfBounds (by have := s.i.isLt; omega))

variable (he : effectOf i s = (writeSpan s.mem (dataBase s) bs).map fun m => { s with mem := m })
include he

/-- A store within memory puts its bytes at `I` and changes no other byte. -/
theorem runsTo_of_store (hm : s.mem.wf = true) (hfit : dataBase s + bs.length ≤ 4096) :
    RunsTo i s (nextPcOf i s) fun t =>
      (∀ k < bs.length, t.mem.read (dataBase s + k) = bs.getD k 0) ∧
      (∀ a, a < dataBase s ∨ dataBase s + bs.length ≤ a → t.mem.read a = s.mem.read a) ∧
      t.i = s.i ∧ SameV s t ∧ SameStack s t ∧ SameFb s t := by
  rw [writeSpan_ok s.mem hfit, map_ok] at he
  have hread := storeBytes_read bs hm (dataBase s) hfit
  refine runsTo_of_effectOf he
    ⟨fun k hk => ?_, fun a ha => ?_, rfl, fun _ => rfl, ⟨rfl, fun _ => rfl⟩, fun _ _ => rfl⟩
  · exact (hread _).trans (by rw [if_pos (by omega), Nat.add_sub_cancel_left]; rfl)
  · exact (hread a).trans (if_neg (by omega))

/-- A store that leaves memory raises before it writes a byte. -/
theorem faultTaken_of_store (h0 : 0 < bs.length) (hout : 4096 < dataBase s + bs.length) :
    ∃ t, exec i s = .next t ∧ FaultTaken .outOfBounds (encode i) (max s.i.toNat 4096) s t :=
  faultTaken_of_data_error (by rw [he, writeSpan_error s.mem h0 hout, map_error, dataBase_eq])

end

/-! ### The stores -/

/-- Each decimal digit is below 10, so a byte holds it. -/
theorem bcdDigits_getD_toNat (b : Byte) :
    ((bcdDigits b).getD 0 0).toNat = b.toNat / 100 ∧ ((bcdDigits b).getD 1 0).toNat = b.toNat / 10 % 10 ∧
    ((bcdDigits b).getD 2 0).toNat = b.toNat % 10 := by
  have := b.isLt
  simp only [bcdDigits, List.getD_cons_zero, List.getD_cons_succ, BitVec.toNat_ofNat]
  omega

/-- Settles O38: the bytes stored are the digits. -/
theorem storeBcdDigits : Obligations.StoreBcdDigits := by
  intro x s hm
  have hlen := bcdDigits_length (s.getV x)
  obtain ⟨hundreds, tens, ones⟩ := bcdDigits_getD_toNat (s.getV x)
  refine ⟨rfl, hasWord_of_encode_toNat (encode_XS_toNat 0xF#4 x 0x33#8 rfl), fun hin => ?_,
    fun hout => faultTaken_of_store (i := .storeBcd x) rfl (by omega) (by omega)⟩
  refine (runsTo_of_store (i := .storeBcd x) rfl hm (by omega)).imp ?_
  rintro t ⟨hbytes, hframe⟩
  refine ⟨?_, ?_, ?_, hframe⟩
  · exact (congrArg BitVec.toNat (hbytes 0 (by omega))).trans hundreds
  · exact (congrArg BitVec.toNat (hbytes 1 (by omega))).trans tens
  · exact (congrArg BitVec.toNat (hbytes 2 (by omega))).trans ones

/-- STORE_REGS within memory (R110). -/
theorem storeRegs_runsTo {x : Reg} {s : State} (hm : s.mem.wf = true) (hin : dataBase s + x.toNat < 4096) :
    RunsTo (.storeRegs x) s (s.pc.toNat + 2) fun t =>
      (∀ k : Reg, k.toNat ≤ x.toNat → t.mem.read (dataBase s + k.toNat) = s.getV k) ∧
      (∀ a, a < dataBase s ∨ dataBase s + x.toNat < a → t.mem.read a = s.mem.read a) ∧
      t.i = s.i ∧ SameV s t ∧ SameStack s t ∧ SameFb s t := by
  have hlen := regsUpTo_length s x
  refine (runsTo_of_store (i := .storeRegs x) rfl hm (by omega)).imp ?_
  rintro t ⟨hbytes, hother, hframe⟩
  exact ⟨fun k hk => (hbytes k.toNat (by omega)).trans (regsUpTo_getD s hk), fun a ha => hother a (by omega), hframe⟩

/-- Settles O39: the bytes stored are `V[0]` to `V[x]`. -/
theorem storeRegsToMemory : Obligations.StoreRegsToMemory := by
  intro x s hm
  have hlen := regsUpTo_length s x
  exact ⟨rfl, hasWord_of_encode_toNat (encode_XS_toNat 0xF#4 x 0x55#8 rfl), storeRegs_runsTo hm,
    fun hout => faultTaken_of_store (i := .storeRegs x) rfl (by omega) (by omega)⟩

/-! ### The load -/

/-- A data read within memory answers the byte at each of its addresses. -/
theorem readSpan_getD (m : Memory) {base n : Nat} (h : base + n ≤ 4096) :
    ∃ bs, readSpan m base n = .ok bs ∧ bs.length = n ∧ ∀ k < n, bs.getD k 0 = m.read (base + k) := by
  have hbs := readSpan_ok m h
  refine ⟨_, hbs, readSpan_length hbs, fun k hk => ?_⟩
  simp [List.getD_eq_getElem?_getD, hk]

/-- LOAD_REGS within memory (R111). -/
theorem loadRegs_runsTo {x : Reg} {s : State} (hin : s.i.toNat + x.toNat < 4096) :
    RunsTo (.loadRegs x) s (s.pc.toNat + 2) fun t =>
      (∀ r : Reg, t.getV r = if r.toNat ≤ x.toNat then s.mem.read (s.i.toNat + r.toNat) else s.getV r) ∧
      SameOutsideV s t := by
  obtain ⟨bs, hbs, hlen, hbytes⟩ := readSpan_getD s.mem (base := dataBase s) (n := regCount x) hin
  have he : effectOf (.loadRegs x) s = .ok { s with v := writeRegsFrom s.v 0 bs } := by
    rw [effectOf, hbs, map_ok]
  refine runsTo_of_effectOf he ⟨fun r => (getV_writeRegsFrom s bs r).trans ?_, sameOutsideV_of_v ..⟩
  rw [hlen, regCount_eq]
  by_cases hr : r.toNat ≤ x.toNat
  · rw [if_pos (Nat.lt_succ_of_le hr), if_pos hr]
    exact hbytes r.toNat (Nat.lt_succ_of_le hr)
  · rw [if_neg (mt Nat.le_of_lt_succ hr), if_neg hr]

/-- Settles O40: the registers up to `x` are the bytes read, and a span that leaves memory raises in the read. -/
theorem loadRegsFromMemory : Obligations.LoadRegsFromMemory := by
  intro x s
  refine ⟨hasWord_of_encode_toNat (encode_XS_toNat 0xF#4 x 0x65#8 rfl), loadRegs_runsTo, fun hout => ?_⟩
  refine faultTaken_of_data_error ?_
  have hspan := readSpan_error s.mem (base := dataBase s) (n := regCount x) (Nat.succ_pos _) (Nat.lt_succ_of_le hout)
  rw [effectOf, hspan, map_error, dataBase_eq]

/-- Settles O41: the load reads the bytes the store put at the same `I`. -/
theorem storeRegsThenLoadRegs : Obligations.StoreRegsThenLoadRegs := by
  intro x s v' hm hin hpc
  obtain ⟨t, hstore, ⟨htpc, -⟩, hbytes, -, hi, -⟩ := (storeRegs_runsTo hm hin).1 (by omega)
  have hpc' : t.pc.toNat + 2 < 4096 := by omega
  have hload := loadRegs_runsTo (x := x) (s := { t with v := v' }) (by rwa [hi])
  obtain ⟨u, hexec, ⟨-, hrun, -⟩, hregs, -⟩ := hload.1 hpc'
  refine ⟨t, u, hstore, hexec, fun k hk => ?_, hrun⟩
  rw [hregs k, if_pos hk, hi]
  exact hbytes k hk

/-! ### The index register -/

/-- A run whose effect writes `I` alone. -/
theorem runsTo_of_index {i : Instr} {s : State} {j : Word} {n : Nat}
    (he : effectOf i s = .ok { s with i := j }) (hj : j.toNat = n) :
    RunsTo i s (nextPcOf i s) fun t =>
      t.i.toNat = n ∧ SameV s t ∧ SameStack s t ∧ SameMem s t ∧ SameFb s t :=
  runsTo_of_effectOf he ⟨hj, fun _ => rfl, ⟨rfl, fun _ => rfl⟩, fun _ => rfl, fun _ _ => rfl⟩

theorem indexImmediate_toNat (nnn : BitVec 12) : (indexImmediate nnn).toNat = nnn.toNat :=
  BitVec.toNat_setWidth_of_le (by decide)

/-- A byte added to `I` wraps at 16 bits only (R108). -/
theorem add_setWidth_toNat (j : Word) (b : Byte) : (j + b.setWidth 16).toNat = (j.toNat + b.toNat) % 65536 := by
  rw [BitVec.toNat_add, BitVec.toNat_setWidth_of_le (by decide)]

/-- Settles O37: both effects write `I` alone. -/
theorem indexLoadAndAdd : Obligations.IndexLoadAndAdd :=
  ⟨fun nnn _ => ⟨hasWord_of_encode_toNat (formatNNN_toNat 0xA#4 nnn),
    runsTo_of_index (i := .loadI nnn) rfl (indexImmediate_toNat nnn)⟩,
   fun x _ => ⟨hasWord_of_encode_toNat (encode_XS_toNat 0xF#4 x 0x1E#8 rfl),
    runsTo_of_index (i := .addI x) rfl (add_setWidth_toNat ..)⟩⟩

end Sys2Proof.Machine
end

section
/-!
PROOFS. The framebuffer (43_display.md R113 to R118). The cells a DRAW toggles are one list, `spriteUnder`: no cell
stands in it twice, so toggling each entry toggles exactly the cells under the sprite.
-/

namespace Sys2Proof.Machine

/-! ### Cells -/

/-- Coordinates wrap, so a wrapped pair names the same cell. -/
@[simp] theorem cell_mod (fb : Framebuffer) (row col : Nat) : fb.cell (row % 32) (col % 64) = fb.cell row col := by
  simp [Framebuffer.cell]

/-- Settles O43: the primitive's cell law, read at wrapped coordinates. -/
theorem xorPixelTogglesOneCell : Obligations.XorPixelTogglesOneCell := by
  intro fb row col
  have hsame : sameCell row col row col = true := by simp [sameCell]
  have hnew : Framebuffer.cell (xorPixel fb row col).1 row col = !(fb.cell row col) := by
    rw [xorPixel_cell, hsame, Bool.xor_true]
  simp only [cell_mod]
  refine ⟨hnew, (xorPixel_value fb row col).trans hnew, fun r c hr hc hne => ?_⟩
  have hother : sameCell row col r c = false := by
    rw [sameCell, Nat.mod_eq_of_lt hr, Nat.mod_eq_of_lt hc, ← Bool.not_eq_true, Bool.and_eq_true, beq_iff_eq, beq_iff_eq]
    exact fun h => hne ⟨h.1.symm, h.2.symm⟩
  rw [xorPixel_cell, hother, Bool.xor_false]

/-- Settles O44: the effect of CLEAR is the cleared framebuffer and nothing else. -/
theorem clearTurnsEveryCellOff : Obligations.ClearTurnsEveryCellOff := fun _ =>
  ⟨hasWord_of_encode_toNat rfl, runsTo_of_effectOf (i := .clear) rfl
    ⟨clearedFramebuffer_cell, fun _ => rfl, rfl, ⟨rfl, fun _ => rfl⟩, fun _ => rfl⟩⟩

/-- Settles O56: the snapshot is the framebuffer itself. -/
theorem snapshotReturnsAllCells : Obligations.SnapshotReturnsAllCells := fun h => ⟨h.core.fb, rfl, fun _ _ => rfl⟩

/-! ### No cell is reached twice (R117) -/

/-- Eight neighbouring columns stay distinct when they wrap at 64. -/
theorem spriteRowCells_nodup (cx row : Nat) (b : Byte) : (spriteRowCells cx row b).Nodup := by
  refine List.pairwise_filterMap.mpr (List.nodup_range.imp_of_mem fun {c c'} hc hc' hne p hp p' hp' heq => ?_)
  rw [List.mem_range] at hc hc'
  obtain ⟨-, ⟨⟩⟩ := Option.ite_none_right_eq_some.mp hp
  obtain ⟨-, ⟨⟩⟩ := Option.ite_none_right_eq_some.mp hp'
  have hcol : (cx + c) % 64 = (cx + c') % 64 := congrArg Prod.snd heq
  omega

/-- Up to 32 neighbouring rows stay distinct when they wrap at 32. -/
theorem spriteCells_nodup (cx cy : Nat) {rows : List Byte} (h : rows.length ≤ 32) : (spriteCells cx cy rows).Nodup := by
  induction rows generalizing cy with
  | nil => exact List.nodup_nil
  | cons b bs ih =>
    rw [List.length_cons] at h
    refine (spriteRowCells_nodup cx cy b).append (ih (cy + 1) (by omega)) fun p hfirst hbelow => ?_
    obtain ⟨c, -, -, rfl⟩ := (mem_spriteRowCells ..).mp hfirst
    obtain ⟨r, c', hr, -, -, heq⟩ := (mem_spriteCells ..).mp hbelow
    have hrow : cy % 32 = (cy + 1 + r) % 32 := congrArg Prod.fst heq
    omega

/-- Settles O45: a sprite has fewer rows than the screen. -/
theorem spriteCellsAreDistinct : Obligations.SpriteCellsAreDistinct := fun cx cy _ h =>
  spriteCells_nodup cx cy (by omega)

/-- The cells of a sprite stand in it with their wrapped coordinates. -/
theorem spriteCells_wrapped {cx cy : Nat} {rows : List Byte} {p : Nat × Nat} (h : p ∈ spriteCells cx cy rows) :
    p.1 % 32 = p.1 ∧ p.2 % 64 = p.2 := by
  obtain ⟨r, c, -, -, -, rfl⟩ := (mem_spriteCells ..).mp h
  exact ⟨Nat.mod_mod .., Nat.mod_mod ..⟩

/-- Toggling the cells of a sprite toggles each cell that is one of them, and no other (R116). -/
theorem xorPixels_spriteCells_cell (fb : Framebuffer) {cx cy : Nat} {rows : List Byte} (h : rows.length ≤ 32)
    (row col : Nat) : Framebuffer.cell (xorPixels fb (spriteCells cx cy rows)) row col =
      (fb.cell row col ^^ decide ((row % 32, col % 64) ∈ spriteCells cx cy rows)) := by
  have hcount : (spriteCells cx cy rows).countP (fun p => sameCell p.1 p.2 row col) =
      (spriteCells cx cy rows).count (row % 32, col % 64) :=
    List.countP_congr fun p hp => by
      obtain ⟨hrow, hcol⟩ := spriteCells_wrapped hp
      simp [sameCell, hrow, hcol, Prod.ext_iff]
  rw [xorPixels_cell, hcount, List.Nodup.count (spriteCells_nodup cx cy h)]
  split <;> simp [*]

/-! ### The collision flag -/

section
variable (fb : Framebuffer) (cells : List (Nat × Nat))

/-- The flag is 1 when a cell to be toggled is on. -/
theorem collisionFlag_eq_one_iff :
    collisionFlag fb cells = 1 ↔ ∃ row col, (row, col) ∈ cells ∧ fb.cell row col = true := by
  rw [← Prod.exists' (p := fun row col => (row, col) ∈ cells ∧ fb.cell row col = true), ← List.any_eq_true]
  unfold collisionFlag
  cases cells.any fun p => fb.cell p.1 p.2 <;> decide

/-- The flag holds 0 or 1. -/
theorem collisionFlag_eq_zero_iff : collisionFlag fb cells = 0 ↔ ¬ collisionFlag fb cells = 1 := by
  unfold collisionFlag
  cases cells.any fun p => fb.cell p.1 p.2 <;> decide

end

/-! ### How a DRAW runs -/

/-- The `n` sprite bytes at `I`. -/
def spriteBytes (s : State) (n : BitVec 4) : List Byte := (List.range n.toNat).map fun k => s.mem.read (s.i.toNat + k)

/-- The cells under the sprite that a DRAW of `x`, `y` and `n` draws. -/
def spriteUnder (s : State) (x y : Reg) (n : BitVec 4) : List (Nat × Nat) :=
  spriteCells (s.getV x).toNat (s.getV y).toNat (spriteBytes s n)

section
variable {s : State} {x y : Reg} {n : BitVec 4}

@[simp] theorem spriteBytes_length : (spriteBytes s n).length = n.toNat := by simp [spriteBytes]

/-- `spriteUnder` lists the cells of the specification's `UnderSprite`. -/
theorem mem_spriteUnder {row col : Nat} : (row, col) ∈ spriteUnder s x y n ↔ UnderSprite s x y n row col := by
  have hbyte {r : Nat} (hr : r < n.toNat) : (spriteBytes s n).getD r 0 = s.mem.read (s.i.toNat + r) := by
    simp [spriteBytes, List.getD_eq_getElem?_getD, hr]
  rw [spriteUnder, mem_spriteCells, spriteBytes_length, UnderSprite]
  refine exists_congr fun r => exists_congr fun c => and_congr_right fun hr => ?_
  rw [hbyte hr, Prod.mk.injEq]

/-- A DRAW within memory, or of no rows, reads its sprite and draws it. -/
theorem effectOf_draw (hin : n = 0 ∨ s.i.toNat + n.toNat - 1 < 4096) :
    effectOf (.draw x y n) s = .ok (drawSprite x y s (spriteBytes s n)) := by
  have hread : readSpan s.mem (dataBase s) n.toNat = .ok (spriteBytes s n) := by
    by_cases h0 : n = 0
    · subst h0
      exact readSpan_zero ..
    · have := hin.resolve_left h0
      exact readSpan_ok s.mem (by rw [dataBase_eq]; omega)
  rw [effectOf, hread, map_ok]

/-- DRAW within memory (R116) or of no rows (R118). -/
theorem draw_runsTo (hin : n = 0 ∨ s.i.toNat + n.toNat - 1 < 4096) :
    RunsTo (.draw x y n) s (s.pc.toNat + 2) fun t =>
      (∀ row col, t.fb.cell row col = (s.fb.cell row col ^^ decide ((row % 32, col % 64) ∈ spriteUnder s x y n))) ∧
      (∀ r, t.getV r = if r = 0xF#4 then collisionFlag s.fb (spriteUnder s x y n) else s.getV r) ∧
      t.i = s.i ∧ SameStack s t ∧ SameMem s t := by
  have hlen : (spriteBytes s n).length ≤ 32 := by have := n.isLt; rw [spriteBytes_length]; omega
  exact runsTo_of_effectOf (effectOf_draw hin)
    ⟨xorPixels_spriteCells_cell s.fb hlen, getV_setV { s with fb := _ } _ _, rfl, ⟨rfl, fun _ => rfl⟩, fun _ => rfl⟩

/-- A DRAW whose sprite leaves memory raises before it toggles a cell. -/
theorem faultTaken_of_draw (h0 : n ≠ 0) (hout : 4096 ≤ s.i.toNat + n.toNat - 1) :
    ∃ t, exec (.draw x y n) s = .next t ∧
      FaultTaken .outOfBounds (encode (.draw x y n)) (max s.i.toNat 4096) s t := by
  have hpos : 0 < n.toNat := Nat.pos_of_ne_zero fun h => h0 (BitVec.eq_of_toNat_eq h)
  have hspan := readSpan_error s.mem (base := dataBase s) hpos (by rw [dataBase_eq]; omega)
  exact faultTaken_of_data_error (by rw [effectOf, hspan, map_error, dataBase_eq])

end

/-- Settles O46: the cells toggled are the members of `spriteUnder`. -/
theorem drawTogglesSpriteCells : Obligations.DrawTogglesSpriteCells := by
  intro x y n s
  have hword : (encode (.draw x y n)).toNat = 0xD000 + 256 * x.toNat + 16 * y.toNat + n.toNat := by
    rw [encode, formatXYN_toNat, Nat.mul_comm 256, Nat.mul_comm 16]
    rfl
  refine ⟨hasWord_of_encode_toNat hword, fun hin => (draw_runsTo hin).imp ?_, faultTaken_of_draw⟩
  rintro t ⟨hcell, hreg, hframe⟩
  have hflag : t.getV 0xF#4 = collisionFlag s.fb (spriteUnder s x y n) := (hreg _).trans (if_pos rfl)
  simp only [← mem_spriteUnder]
  refine ⟨fun row col hrow hcol => ?_, ?_, ?_, fun r hr => (hreg r).trans (if_neg hr), hframe⟩
  · rw [hcell, Nat.mod_eq_of_lt hrow, Nat.mod_eq_of_lt hcol]
    constructor <;> intro h <;> simp [h]
  · rw [hflag, collisionFlag_eq_one_iff]
    exact id
  · rw [hflag, collisionFlag_eq_zero_iff, collisionFlag_eq_one_iff]
    exact id

/-- Settles O47: no rows, no cells under them, no collision. -/
theorem drawZeroRows : Obligations.DrawZeroRows := by
  intro x y s
  refine ⟨hasWord_of_encode_toNat (encode_XYS_toNat 0xD#4 x y 0x0#4 rfl), (draw_runsTo (.inl rfl)).imp ?_⟩
  rintro t ⟨hcell, hreg, hi, hstack, hmem⟩
  have hnone : spriteUnder s x y 0 = [] := rfl
  refine ⟨hreg, hi, hstack, hmem, fun row col => ?_⟩
  rw [hcell, hnone, decide_eq_false List.not_mem_nil, Bool.xor_false]

/-- A sprite is given by `I`, memory and the registers that place it. -/
theorem spriteUnder_congr {s t : State} (hv : t.v = s.v) (hi : t.i = s.i) (hmem : SameMem s t) (x y : Reg)
    (n : BitVec 4) : spriteUnder t x y n = spriteUnder s x y n := by
  simp only [spriteUnder, spriteBytes, getV_congr hv, hi, hmem _]

/-- Settles O48: the second DRAW toggles the same list of cells. -/
theorem drawTwiceRestores : Obligations.DrawTwiceRestores := by
  intro x y n s hin hpc
  obtain ⟨t, hfirst, -, hcell, -, hi, -, hmem⟩ := (draw_runsTo (x := x) (y := y) hin).1 hpc
  have hsprite := spriteUnder_congr (s := s) (t := { t with pc := s.pc, v := s.v }) rfl hi hmem x y n
  obtain ⟨u, hsecond, ⟨-, hrun, -⟩, hcell', hreg', -⟩ :=
    (draw_runsTo (x := x) (y := y) (s := { t with pc := s.pc, v := s.v }) (by rwa [hi])).1 hpc
  rw [hsprite] at hcell' hreg'
  refine ⟨t, u, hfirst, hsecond, fun row col => ?_, hrun, ?_⟩
  · rw [hcell', hcell, Bool.xor_assoc, Bool.xor_self, Bool.xor_false]
  · rw [hreg', if_pos rfl, collisionFlag_eq_one_iff]
    simp only [← mem_spriteUnder]
    refine exists_congr fun row => exists_congr fun col => and_congr_right fun hunder => ?_
    obtain ⟨hrow, hcol⟩ := spriteCells_wrapped hunder
    dsimp only at hrow hcol
    rw [hcell, hrow, hcol, decide_eq_true hunder, Bool.xor_true, Bool.not_eq_true']

end Sys2Proof.Machine
end

section
/-!
PROOFS. Unrecognized opcodes (44_unrecognized.md R119): the tick runs `execUnrecognized`, whose one check is `A + 2`.
-/

namespace Sys2Proof.Machine

variable {s : State} {w : Opcode}

theorem step_unrecognized {g : UnrecognizedGroup} (hr : s.runState ≠ .halted) (hf : fetch s = .ok w)
    (hd : decode w = .unrecognized g) : step s = execUnrecognized w s := by
  rcases step_cases s hr with ⟨f, hf', _⟩ | ⟨v, i, hf', hd', _⟩ | ⟨v, g', hf', _, he⟩ <;> cases hf.symm.trans hf'
  · cases hd.symm.trans hd'
  · exact he

theorem execUnrecognized_completes (w : Opcode) (hlt : s.pc.toNat + 2 < 4096) :
    ∃ t, execUnrecognized w s = .next t ∧ CompletedAt (s.pc.toNat + 2) s t ∧ SameAllButPc s t := by
  rcases execUnrecognized_cases w s with ⟨_, he⟩ | ⟨hge, _⟩
  · exact ⟨_, he, ⟨ofNat_toNat_of_lt hlt, rfl, ⟨rfl, rfl⟩, rfl, rfl, rfl, rfl⟩, fun _ => rfl,
      sameOutsideV_of_v s s.v _ .running⟩
  · omega

theorem execUnrecognized_faults (w : Opcode) (hge : 4096 ≤ s.pc.toNat + 2) :
    ∃ t, execUnrecognized w s = .next t ∧ FaultTaken .outOfBounds w (s.pc.toNat + 2) s t := by
  rcases execUnrecognized_cases w s with ⟨hlt, _⟩ | ⟨_, he⟩
  · omega
  · exact ⟨_, he, faultTaken_faultEntry _ w s (faultAddr_outOfBounds (by omega))⟩

/-- Settles O14: the tick is `execUnrecognized`, and `report` turns on the same bound as its `NextPC`. -/
theorem unrecognizedIsReportedAndSkipped : Obligations.UnrecognizedIsReportedAndSkipped := by
  intro s w g hr hf hd
  rw [report_unrecognized hr hf hd, step_unrecognized hr hf hd]
  exact ⟨fun hlt => ⟨if_pos hlt, execUnrecognized_completes w hlt⟩,
    fun hge => ⟨if_neg (Nat.not_lt.mpr hge), execUnrecognized_faults w hge⟩⟩

end Sys2Proof.Machine
end

section
/-!
PROOFS. The faults of a tick (60_exceptions.md R121 to R125). Every tick of a core that is not Halted commits one result
(`TickCommits`), and the fault in that result is the one `tickFaultOf` lists.
-/

namespace Sys2Proof.Machine

/-! ### The fault a result holds -/

/-- The fault in a result, if it holds one. -/
def raised {α : Type} : Except Fault α → Option Fault
  | .error f => some f
  | .ok _ => none

@[simp] theorem raised_error {α : Type} (f : Fault) : raised (.error f : Except Fault α) = some f := rfl
@[simp] theorem raised_ok {α : Type} (a : α) : raised (.ok a) = none := rfl

@[simp] theorem raised_map {α β : Type} (e : Except Fault α) (g : α → β) : raised (e.map g) = raised e := by
  cases e <;> rfl

/-- `NextPC` raises exactly when its target is out of range (10_state.md R27). -/
@[simp] theorem raised_nextPc (target : Nat) (s : State) : raised (nextPc target s) = targetFaultOf target := by
  unfold targetFaultOf
  split
  · next hge => rw [nextPc_error hge, raised_error]
  · next hlt => rw [nextPc_ok (Nat.lt_of_not_le hlt), raised_ok]

/-- A `NextPC` that answers writes `PC` alone. -/
theorem nextPc_ok_cases {target : Nat} {s t : State} (h : nextPc target s = .ok t) :
    t = { s with pc := BitVec.ofNat 16 target } := by
  unfold nextPc at h
  split at h <;> cases h
  rfl

/-- The fault of an effect comes before that of the next `PC` (R124). -/
theorem raised_bind_nextPc (e : Except Fault State) (target : Nat) :
    raised (e.bind (nextPc target)) = (raised e).or (targetFaultOf target) := by
  cases e with
  | error f => rfl
  | ok t => exact raised_nextPc target t

/-! ### The fault an effect raises -/

section
variable {i : Instr} {s : State}

theorem dataFaultOf_of_out (h0 : dataWidth i ≠ 0) (h : 4096 < s.i.toNat + dataWidth i) :
    dataFaultOf i s = some (.outOfBounds (max s.i.toNat 4096)) := if_pos ⟨h0, by omega⟩

theorem dataFaultOf_of_in (h : dataWidth i = 0 ∨ s.i.toNat + dataWidth i ≤ 4096) : dataFaultOf i s = none :=
  if_neg (by omega)

theorem raised_readSpan {n : Nat} (hn : n = dataWidth i) :
    raised (readSpan s.mem (dataBase s) n) = dataFaultOf i s := by
  subst hn
  rcases readSpan_cases s.mem (dataBase s) (dataWidth i) with ⟨he, h0, hout⟩ | ⟨bs, he, hin⟩ <;> rw [he]
  · exact (dataFaultOf_of_out h0 hout).symm
  · exact (dataFaultOf_of_in hin).symm

theorem raised_writeSpan {bs : List Byte} (hlen : bs.length = dataWidth i) (h0 : bs.length ≠ 0) :
    raised (writeSpan s.mem (dataBase s) bs) = dataFaultOf i s := by
  rcases writeSpan_cases s.mem (dataBase s) bs h0 with ⟨he, hout⟩ | ⟨m, he, hin⟩ <;> rw [he]
  · exact (dataFaultOf_of_out (hlen ▸ h0) (hlen ▸ hout)).symm
  · exact (dataFaultOf_of_in (.inr (hlen ▸ hin))).symm

theorem raised_push (a : Word) :
    raised (push s a) = if Config.stackCapacity ≤ s.sp then some .stackOverflow else none := by
  split
  · next hfull => rw [push_error s a (Nat.not_lt.mpr hfull), raised_error]
  · next hroom => rw [push_ok s a (Nat.lt_of_not_le hroom), raised_ok]

theorem raised_pop : raised (pop s) = if s.sp = 0 then some .stackUnderflow else none := by
  split
  · next hempty => rw [pop_error s hempty, raised_error]
  · next hused => rw [pop_ok s hused, raised_ok]

end

/-- CALL and RETURN check the stack, the four data accesses their span, and no other effect raises (R122). -/
theorem raised_effectOf (i : Instr) (s : State) :
    raised (effectOf i s) = (stackFaultOf i s).or (dataFaultOf i s) := by
  cases i
  case call nnn =>
    rw [dataFaultOf_of_in (.inl rfl), Option.or_none]
    exact raised_push _
  case ret =>
    rw [dataFaultOf_of_in (.inl rfl), Option.or_none]
    exact (raised_map ..).trans raised_pop
  case draw | loadRegs => exact (raised_map ..).trans (raised_readSpan rfl)
  case storeBcd => exact (raised_map ..).trans (raised_writeSpan rfl (by simp))
  case storeRegs => exact (raised_map ..).trans (raised_writeSpan (regsUpTo_length ..) (by simp))
  all_goals exact (dataFaultOf_of_in (.inl rfl)).symm

/-! ### Faults that fit the record -/

/-- A fault whose address is out of range and fits the 17 bits of `FAULT_ADDR` (10_state.md R31). -/
def Fault.Recordable : Fault → Prop
  | .outOfBounds a => 4096 ≤ a ∧ a < 131072
  | .stackOverflow | .stackUnderflow => True

section
variable {f : Fault}

theorem targetFaultOf_recordable {target : Nat} (hlt : target < 131072) (h : targetFaultOf target = some f) :
    f.Recordable := by
  obtain ⟨hge, ⟨⟩⟩ := Option.ite_none_right_eq_some.mp h
  exact ⟨hge, hlt⟩

theorem dataFaultOf_recordable {i : Instr} {s : State} (h : dataFaultOf i s = some f) : f.Recordable := by
  obtain ⟨-, ⟨⟩⟩ := Option.ite_none_right_eq_some.mp h
  have := s.i.isLt
  exact ⟨le_max_right .., by omega⟩

theorem stackFaultOf_recordable {i : Instr} {s : State} (h : stackFaultOf i s = some f) : f.Recordable := by
  cases i
  case call | ret =>
    obtain ⟨-, ⟨⟩⟩ := Option.ite_none_right_eq_some.mp h
    trivial
  all_goals cases h

theorem instrFaultOf_recordable {i : Instr} {s : State} (h : instrFaultOf i s = some f) : f.Recordable := by
  simp only [instrFaultOf, Option.or_eq_some_iff] at h
  rcases h with hstack | ⟨-, hdata | ⟨-, htarget⟩⟩
  · exact stackFaultOf_recordable hstack
  · exact dataFaultOf_recordable hdata
  · exact targetFaultOf_recordable (nextPcOf_lt i s) htarget

end

/-! ### The fault listed for a tick -/

section
variable {s : State} {w : Opcode}

theorem tickFaultOf_fetch_error {f : Fault} (hf : fetch s = .error f) : tickFaultOf s = some (f, 0) := by
  obtain ⟨hge, rfl⟩ := fetch_error_cases hf
  exact if_pos hge

theorem tickFaultOf_instr {i : Instr} (hf : fetch s = .ok w) (hd : decode w = .instr i) :
    tickFaultOf s = (instrFaultOf i s).map (·, w) := by
  have hlt := fetch_ok_bound hf
  cases (fetchWord_ok s.mem hlt).symm.trans hf
  simp only [tickFaultOf, if_neg (Nat.not_le.mpr hlt), hd]

theorem tickFaultOf_unrecognized {g : UnrecognizedGroup} (hf : fetch s = .ok w) (hd : decode w = .unrecognized g) :
    tickFaultOf s = (targetFaultOf (s.pc.toNat + 2)).map (·, w) := by
  have hlt := fetch_ok_bound hf
  cases (fetchWord_ok s.mem hlt).symm.trans hf
  simp only [tickFaultOf, if_neg (Nat.not_le.mpr hlt), hd]

end

/-! ### What a tick commits -/

/-- The tick from `s` commits the result `e` under the opcode `w`: the word fetched, or 0 where none was. The fault in
`e` is the one listed, fits the record and leaves nothing to report; a state in `e` has the record of `s`. -/
structure TickCommits (s : State) (w : Opcode) (e : Except Fault State) : Prop where
  step_eq : step s = commit w s e
  opcode : fetch s = .ok w ∨ (∃ f, fetch s = .error f) ∧ w = 0
  listed : tickFaultOf s = (raised e).map (·, w)
  recordable : ∀ f, raised e = some f → f.Recordable
  report_none : ∀ f, raised e = some f → report s = .none
  same_record : ∀ t, e = .ok t → SameRecord s t

section
variable {s : State} {w : Opcode}

theorem tickCommits_fetch_error (hr : s.runState ≠ .halted) {f : Fault} (hf : fetch s = .error f) :
    TickCommits s 0 (.error f) where
  step_eq := step_fetch_error hr hf
  opcode := .inr ⟨⟨f, hf⟩, rfl⟩
  listed := tickFaultOf_fetch_error hf
  recordable g hg := by
    cases hg
    obtain ⟨hge, rfl⟩ := fetch_error_cases hf
    exact ⟨hge, by omega⟩
  report_none _ _ := report_fetch_error hf
  same_record _ h := nomatch h

theorem tickCommits_instr (hr : s.runState ≠ .halted) {i : Instr} (hf : fetch s = .ok w) (hd : decode w = .instr i) :
    TickCommits s w ((effectOf i s).bind (nextPc (nextPcOf i s))) :=
  have hraised : raised ((effectOf i s).bind (nextPc (nextPcOf i s))) = instrFaultOf i s := by
    rw [raised_bind_nextPc, raised_effectOf, Option.or_assoc, instrFaultOf]
  { step_eq := by rw [step_instr hr hf hd, exec_eq_retire, retire, encode_of_decode hd]
    opcode := .inl hf
    listed := by rw [tickFaultOf_instr hf hd, hraised]
    recordable := fun _ h => instrFaultOf_recordable (hraised ▸ h)
    report_none := fun _ _ => report_instr hf hd
    same_record := fun t ht => by
      cases he : effectOf i s with
      | error f => rw [he] at ht; cases ht
      | ok u =>
        rw [he, bind_ok] at ht
        obtain rfl := nextPc_ok_cases ht
        exact (effectOf_shape he).record }

theorem tickCommits_unrecognized (hr : s.runState ≠ .halted) {g : UnrecognizedGroup} (hf : fetch s = .ok w)
    (hd : decode w = .unrecognized g) : TickCommits s w (nextPc (followingAddress s) s) :=
  have hraised : raised (nextPc (followingAddress s) s) = targetFaultOf (s.pc.toNat + 2) := raised_nextPc ..
  { step_eq := step_unrecognized hr hf hd
    opcode := .inl hf
    listed := by rw [tickFaultOf_unrecognized hf hd, hraised]
    recordable := fun _ h => targetFaultOf_recordable (by omega) (hraised ▸ h)
    report_none := fun _ h => by
      obtain ⟨hge, -⟩ := Option.ite_none_right_eq_some.mp (hraised ▸ h)
      rw [report_unrecognized hr hf hd, if_neg (Nat.not_lt.mpr hge)]
    same_record := fun t ht => by
      obtain rfl := nextPc_ok_cases ht
      exact ⟨rfl, rfl, rfl, rfl⟩ }

theorem exists_tickCommits (hr : s.runState ≠ .halted) : ∃ w e, TickCommits s w e := by
  rcases step_cases s hr with ⟨f, hf, _⟩ | ⟨w, i, hf, hd, _⟩ | ⟨w, g, hf, hd, _⟩
  · exact ⟨_, _, tickCommits_fetch_error hr hf⟩
  · exact ⟨_, _, tickCommits_instr hr hf hd⟩
  · exact ⟨_, _, tickCommits_unrecognized hr hf hd⟩

end

/-! ### The faults taken -/

theorem faultCodeOf_ne_none (f : Fault) : faultCodeOf f ≠ .none := by cases f <;> exact nofun

/-- What the record of a fault that fits shows (R121). -/
theorem Fault.Recordable.code_addr {f : Fault} (h : f.Recordable) :
    (faultCodeOf f = .outOfBounds ∧ 4096 ≤ (faultAddrOf f).toNat) ∨
    (faultCodeOf f ≠ .outOfBounds ∧ (faultAddrOf f).toNat = 0) := by
  cases f with
  | outOfBounds a =>
    obtain ⟨hge, hlt⟩ := h
    exact .inl ⟨rfl, by rwa [faultAddr_outOfBounds hlt]⟩
  | stackOverflow | stackUnderflow => exact .inr ⟨nofun, rfl⟩

/-- Settles O19: the result a tick commits holds the fault listed, or a state with the record as it was. -/
theorem stepFaultsExactlyAsListed : Obligations.StepFaultsExactlyAsListed := by
  intro s hr
  obtain ⟨w, e, tick⟩ := exists_tickCommits hr
  cases e with
  | ok u =>
    refine ⟨_, tick.step_eq, ?_⟩
    rw [tick.listed]
    exact ⟨rfl, tick.same_record u rfl⟩
  | error f =>
    refine ⟨_, tick.step_eq, ?_⟩
    rw [tick.listed]
    have hreport := tick.report_none f rfl
    have hfits := tick.recordable f rfl
    cases f with
    | outOfBounds a => exact ⟨faultTaken_faultEntry _ w s (faultAddr_outOfBounds hfits.2), hreport⟩
    | stackOverflow => exact ⟨faultTaken_faultEntry .stackOverflow w s rfl, hreport⟩
    | stackUnderflow => exact ⟨faultTaken_faultEntry .stackUnderflow w s rfl, hreport⟩

/-- Settles O20: the same result, whose fault is taken with the code and the address that fit the record. -/
theorem faultsArePrecise : Obligations.FaultsArePrecise := by
  intro s t hr ht
  obtain ⟨w, e, tick⟩ := exists_tickCommits hr
  rw [tick.step_eq] at ht
  cases e with
  | ok u =>
    cases ht
    exact .inl ⟨rfl, tick.same_record u rfl⟩
  | error f =>
    cases ht
    exact .inr ⟨faultCodeOf f, w, (faultAddrOf f).toNat, faultCodeOf_ne_none f, faultTaken_faultEntry f w s rfl,
      tick.report_none f rfl, tick.opcode, (tick.recordable f rfl).code_addr⟩

end Sys2Proof.Machine
end

section
/-!
PROOFS. No step reads or writes a timer (60_exceptions.md R132, R136): setting the timers commutes with every operation
a step is made of.
-/

namespace Sys2Proof.Machine

/-- The same state with other timers. -/
def State.withTimers (d e : Byte) (s : State) : State := { s with dt := d, st := e }

section
variable (d e : Byte) (s : State)

theorem nextPc_withTimers (target : Nat) :
    nextPc target (s.withTimers d e) = (nextPc target s).map (State.withTimers d e) := by
  unfold nextPc
  split <;> rfl

theorem push_withTimers (a : Word) : push (s.withTimers d e) a = (push s a).map (State.withTimers d e) := by
  by_cases room : s.sp < Config.stackCapacity
  · rw [push_ok s a room, push_ok (s.withTimers d e) a room]
    rfl
  · rw [push_error s a room, push_error (s.withTimers d e) a room]
    rfl

theorem pop_withTimers : pop (s.withTimers d e) = (pop s).map (Prod.map id (State.withTimers d e)) := by
  by_cases empty : s.sp = 0
  · rw [pop_error s empty, pop_error (s.withTimers d e) empty]
    rfl
  · rw [pop_ok s empty, pop_ok (s.withTimers d e) empty]
    rfl

/-- Two answers made from one result differ in the timers alone when they do so at every value of it. -/
theorem map_withTimers {α : Type} (x : Except Fault α) {f g : α → State} (h : ∀ a, g a = (f a).withTimers d e) :
    x.map g = (x.map f).map (State.withTimers d e) := by
  cases x with
  | error _ => rfl
  | ok a => exact congrArg Except.ok (h a)

/-- No effect reads a timer: the bytes a data access answers do not depend on them, nor does what is made of them. -/
theorem effectOf_withTimers (i : Instr) :
    effectOf i (s.withTimers d e) = (effectOf i s).map (State.withTimers d e) := by
  cases i
  case call => exact push_withTimers ..
  case ret =>
    rw [effectOf, effectOf, pop_withTimers]
    cases pop s <;> rfl
  case draw | storeBcd | storeRegs | loadRegs => exact map_withTimers _ _ _ fun _ => rfl
  all_goals rfl

variable {d e s} {t : State}

theorem commit_withTimers {w : Opcode} {x : Except Fault State} (h : commit w s x = .next t) :
    commit w (s.withTimers d e) (x.map (State.withTimers d e)) = .next (t.withTimers d e) := by
  cases x <;> cases h <;> rfl

theorem exec_withTimers {i : Instr} (h : exec i s = .next t) :
    exec i (s.withTimers d e) = .next (t.withTimers d e) := by
  have hnext : (effectOf i (s.withTimers d e)).bind (nextPc (nextPcOf i s)) =
      ((effectOf i s).bind (nextPc (nextPcOf i s))).map (State.withTimers d e) := by
    rw [effectOf_withTimers]
    cases effectOf i s with
    | error _ => rfl
    | ok u => exact nextPc_withTimers ..
  rw [exec_eq_retire] at h ⊢
  exact (congrArg (commit (encode i) (s.withTimers d e)) hnext).trans (commit_withTimers h)

theorem execUnrecognized_withTimers {w : Opcode} (h : execUnrecognized w s = .next t) :
    execUnrecognized w (s.withTimers d e) = .next (t.withTimers d e) :=
  (congrArg (commit w (s.withTimers d e)) (nextPc_withTimers d e s _)).trans (commit_withTimers h)

/-- Fetch, decode, execute and commit read no timer. -/
theorem step_withTimers (h : step s = .next t) : step (s.withTimers d e) = .next (t.withTimers d e) := by
  by_cases hr : s.runState = .halted
  · rw [step_halted s hr] at h
    cases h
    exact step_halted (s.withTimers d e) hr
  · rcases step_cases s hr with ⟨f, hf, he⟩ | ⟨w, i, hf, hd, he⟩ | ⟨w, g, hf, hd, he⟩ <;> rw [he] at h
    · cases h
      exact step_fetch_error (s := s.withTimers d e) hr hf
    · exact (step_instr (s := s.withTimers d e) hr hf hd).trans (exec_withTimers h)
    · exact (step_unrecognized (s := s.withTimers d e) hr hf hd).trans (execUnrecognized_withTimers h)

/-- Setting the timers to what they were changes no step, so no step changes the timers. -/
theorem step_timers (h : step s = .next t) : SameTimers s t := by
  have hsame : t.withTimers s.dt s.st = t := Host.Outcome.next.inj ((step_withTimers h).symm.trans h)
  exact ⟨(congrArg State.dt hsame).symm, (congrArg State.st hsame).symm⟩

end

/-- Settles O52: a step neither changes the timers nor depends on them. -/
theorem timersDoNotInfluenceSteps : Obligations.TimersDoNotInfluenceSteps := by
  intro s t d e h
  obtain ⟨hdt, hst⟩ := step_timers h
  exact ⟨hdt, hst, step_withTimers h⟩

end Sys2Proof.Machine
end

section
/-!
PROOFS. The host's ports: in Halted (60_exceptions.md R127), after a failed load (R123, 70_reset_and_hazards.md R144),
and on the timers (R133 to R135).
-/

namespace Sys2Proof.Machine

/-! ### Ticks and loads -/

/-- A load that answers LoadError is recorded as made and as failed. -/
theorem sessionLoad_failed {bytes : List Byte} {h h' : Session}
    (hl : sessionLoad bytes h = some (h', .loadError)) : h'.loaded = true ∧ h'.loadFailed = true := by
  unfold sessionLoad at hl
  split at hl
  · split at hl <;> cases hl
    exact ⟨rfl, rfl⟩
  · cases hl

theorem sessionTick_none {h : Session} (hfailed : h.loadFailed = true) : sessionTick h = none := if_pos hfailed

/-- The host can tick unless a load failed: every state has a step. -/
theorem sessionTick_some {h : Session} (hok : h.loadFailed = false) : ∃ h' r, sessionTick h = some (h', r) := by
  obtain ⟨t, ht⟩ := step_next h.core
  exact ⟨{ h with core := t }, .ticked (report h.core) (trace h.core), by simp [sessionTick, hok, ht]⟩

/-- Settles O54: a failed load bars both moves, and a reset forgets it and any load made. -/
theorem noTickAfterLoadError : Obligations.NoTickAfterLoadError := by
  intro h h' bytes hl
  obtain ⟨hloaded, hfailed⟩ := sessionLoad_failed hl
  refine ⟨sessionTick_none hfailed, fun _ => sessionLoad_none (.inr hloaded), fun vReset => ?_⟩
  exact ⟨sessionReset vReset, rfl, sessionTick_some rfl, _, _,
    sessionLoad_ok (bytes := []) (h := sessionReset vReset) rfl rfl (by decide)⟩

/-- Settles O15: a Halted core is not Idle, so it takes no load, and no other port looks at `RUN_STATE`. -/
theorem haltedTickHasNoEffect : Obligations.HaltedTickHasNoEffect := by
  intro h hr
  have hidle : h.core.runState ≠ .idle := by rw [hr]; exact nofun
  exact ⟨step_halted h.core hr, report_halted hr, fun _ => sessionLoad_none (.inl hidle), rfl, rfl, rfl,
    fun _ => rfl, fun _ => rfl, ⟨_, rfl⟩, rfl⟩

/-! ### Timers -/

theorem countDown_toNat (b : Byte) : (countDown b).toNat = b.toNat - 1 := by
  unfold countDown
  split
  · next h => rw [h]; rfl
  · next h => bv_omega

/-- Settles O55: each port is its own update of the timers, and a decrement counts each of them down. -/
theorem timerPorts : Obligations.TimerPorts := fun h _ =>
  ⟨rfl, rfl, rfl, rfl, countDown h.core.dt, countDown h.core.st, rfl, countDown_toNat h.core.dt,
    countDown_toNat h.core.st⟩

end Sys2Proof.Machine
end

section
/-!
PROOFS. The reset values (70_reset_and_hazards.md R142) and the parked state (R146).
-/

namespace Sys2Proof.Machine

/-- Settles O21: the session after a reset holds `State.resetWith`, whose memory and call stack list no key (so every
one reads 0) and whose framebuffer is the cleared one. -/
theorem resetValues : Obligations.ResetValues := fun _ vReset =>
  ⟨sessionReset vReset, rfl, fun _ => rfl, rfl, rfl, rfl, cellsRead_nil, rfl, rfl, cellsRead_nil,
    clearedFramebuffer_cell, rfl, rfl, rfl, rfl, rfl⟩

/-- A JUMP retires with no write of its own: it commits its target as `PC`. -/
theorem exec_jump (nnn : BitVec 12) (s : State) :
    exec (.jump nnn) s = .next { s with pc := BitVec.ofNat 16 nnn.toNat, runState := .running } :=
  (exec_eq_retire (.jump nnn) s).trans (retire_ok _ s s nnn.isLt)

/-- Settles O31: the JUMP at `PC` writes only `PC` and `RUN_STATE`, and both hold the written value already. -/
theorem parkedStateIsUnchanged : Obligations.ParkedStateIsUnchanged := by
  intro s hrun ⟨hpc, nnn, htarget, hdecode⟩
  have hne : s.runState ≠ .halted := by rw [hrun]; exact nofun
  have hsame : ({ s with pc := BitVec.ofNat 16 nnn.toNat, runState := .running } : State) = s := by
    rw [htarget, BitVec.ofNat_toNat, BitVec.setWidth_eq, ← hrun]
  rw [step_instr hne (fetchWord_ok s.mem hpc) hdecode, exec_jump, hsame]

end Sys2Proof.Machine
end
